-- ==== Sys2Proof/Word.lean ====
section
/-! DEFINITION. The two bit-vector types of the engine (spec 00_scope.md R10, R15, R17): 32-bit words
and bytes. All arithmetic on them is unsigned and wraps, as `BitVec` addition does. -/

namespace Sys2Proof

/-- A 32-bit word: accumulator words, schedule words, command words, STATUS (R10, R15). -/
abbrev Word := BitVec 32

/-- A byte: buffer bytes, payload bytes, digest bytes (R15). -/
abbrev Byte := BitVec 8

end Sys2Proof
end

