-- ==== Sys2Proof/Config.lean ====
section
/-! DEFINITION. The named parameters a model takes as arguments (00_scope.md R13). `SUBBYTE_ALIGN` is also a
field of State, so that every statement about an engine holds for both of its values; the two others are a
platform's (`Machine/Platform.lean`), and no step reads them. -/

namespace Sys2Proof

/-- `SUBBYTE_ALIGN` (R13, R161, decision D6): where the 0..7 extra final bits sit in FINAL's byte `UB`. -/
inductive SubbyteAlign
  /-- The extra bits are `UB[N-1:0]`, `UB[N-1]` first: the document's reading and the spec's default. -/
  | low
  /-- The extra bits are `UB[7:8-N]`, `UB[7]` first: the upstream code's placement (93 G6). -/
  | high
  deriving DecidableEq, Repr

namespace Config

/-- The spec's default for `SUBBYTE_ALIGN` (R13: "default `low`"). -/
def subbyteAlignDefault : SubbyteAlign := .low

/-- The largest `LEN` of one UPDATE: 2^24 - 1 bytes (R14, R62). -/
def maxChunk : Nat := 16777215

/-- The named parameters of a platform (R13); no other exists. -/
structure Parameters where
  /-- `SUBBYTE_ALIGN` of its engines. -/
  subbyteAlign : SubbyteAlign
  /-- `ENGINE_BASE`: where the platform maps the engine's ports, and `none` if it maps them to no address
  (R13, R72, decision D24; OPEN). -/
  engineBase : Option Nat
  /-- The engines beyond the first: `NUM_ENGINES` is at least 1 (R13, decision D20; OPEN). -/
  furtherEngines : Nat
  deriving DecidableEq, Repr

/-- `NUM_ENGINES` (R13). -/
def Parameters.numEngines (p : Parameters) : Nat := p.furtherEngines + 1

end Config

end Sys2Proof
end

