-- ==== Sys2Proof/Syntax.lean ====
section
/-! DEFINITION. The commands of the engine: one constructor per row of spec/opcode_table.json
(30_encoding.md R82), each with the operands its rule gives it. -/

namespace Sys2Proof

/-- The variant of a context (00_scope.md R4; 10_state.md R37): `VAR` and INIT's `V`, 0 = SHA256 and
1 = SHA224. -/
inductive Variant
  | sha256
  | sha224
  deriving DecidableEq, Repr

/-- A host command together with its payload, i.e. one well-formed transaction (R80). -/
inductive Instr
  /-- INIT (R111): select the variant and initialize a context. -/
  | init (v : Variant)
  /-- UPDATE (R112): absorb the payload; `len` is the field `LEN`, the payload's length in bytes. -/
  | update (len : BitVec 24) (payload : List Byte)
  /-- FINAL (R160): `n` extra bits held in the byte `ub`, then padding, last compression and digest. -/
  | final (n : BitVec 3) (ub : Byte)
  deriving DecidableEq, Repr

end Sys2Proof
end

