-- ==== Sys2Proof/WellFormed.lean ====
section
/-! DEFINITION. What makes a command well-formed beyond its type: an UPDATE comes with exactly `LEN`
payload bytes (20_memory.md R61, R62; 70_reset_and_hazards.md R215). The field widths of `LEN`, `N` and
`UB` are the types of `Instr`, and INIT and FINAL have no payload. -/

namespace Sys2Proof

/-- The host may send this command: its payload has the length its word names (R215). -/
def Instr.wellFormed : Instr → Bool
  | .init _ => true
  | .update len payload => payload.length == len.toNat
  | .final _ _ => true

end Sys2Proof
end

