-- ==== Sys2Proof/Decode.lean ====
section
/-! DEFINITION. The command port's items, the decoder (30_encoding.md R80 to R92) and the encoder.
`decodeWord` reads a command word and is total on every 32-bit word (R89); `decode` reads the next
transaction from the items on the command port and is total on every list of items, naming why it finds
none. The encoder is written from the format tables R83 to R85. -/

namespace Sys2Proof

/-- What the command port moves: 32-bit command words and 8-bit payload bytes (20_memory.md R61, R70). -/
inductive PortItem
  | word (w : Word)
  | byte (b : Byte)
  deriving DecidableEq, Repr

/-- A well-formed command word's fields, before its payload (R86 to R89). -/
inductive Header
  | init (v : Variant)
  | update (len : BitVec 24)
  | final (n : BitVec 3) (ub : Byte)
  deriving DecidableEq, Repr

/-- The variant a bit selects (R37, R86): 0 = SHA256, 1 = SHA224. -/
def Variant.ofBit : Bool → Variant
  | false => .sha256
  | true => .sha224

/-- The bit that selects a variant (R37, R83). -/
def Variant.bit : Variant → BitVec 1
  | .sha256 => 0#1
  | .sha224 => 1#1

/-- Field `OP = w[3:0]` (R81). -/
def opField (w : Word) : BitVec 4 := w.extractLsb' 0 4

/-- `V = w[4]` (R86). -/
def variantField (w : Word) : Variant := Variant.ofBit (w.getLsbD 4)

/-- `LEN = w[31:8]` (R87). -/
def lenField (w : Word) : BitVec 24 := w.extractLsb' 8 24

/-- `N = w[10:8]` (R88). -/
def nField (w : Word) : BitVec 3 := w.extractLsb' 8 3

/-- `UB = w[23:16]` (R88). -/
def ubField (w : Word) : Byte := w.extractLsb' 16 8

/-- R89: mask and match, in the spec's order; `none` is the spec's `ILLEGAL`. -/
def decodeWord (w : Word) : Option Header :=
  if w &&& 0xFFFFFFEF#32 = 0x00000001#32 then some (.init (variantField w))
  else if w &&& 0x000000FF#32 = 0x00000002#32 then some (.update (lenField w))
  else if w &&& 0xFF00F8FF#32 = 0x00000003#32 then some (.final (nField w) (ubField w))
  else none

/-- The outcome of taking an UPDATE's payload from the port. -/
inductive PayloadResult
  /-- All bytes have arrived. -/
  | complete (payload : List Byte) (rest : List PortItem)
  /-- The port holds fewer bytes so far: the engine waits (R215). -/
  | missing
  /-- A command word stands where a payload byte is due. -/
  | interrupted
  deriving DecidableEq, Repr

/-- Take exactly `n` payload bytes, in arrival order (R62). -/
def takePayload : Nat → List PortItem → PayloadResult
  | 0, rest => .complete [] rest
  | _ + 1, [] => .missing
  | _ + 1, .word _ :: _ => .interrupted
  | n + 1, .byte b :: rest =>
    match takePayload n rest with
    | .complete payload rest' => .complete (b :: payload) rest'
    | .missing => .missing
    | .interrupted => .interrupted

/-- What stands at the front of the command port. -/
inductive DecodeResult
  /-- A whole well-formed transaction, and what follows it. -/
  | instr (i : Instr) (rest : List PortItem)
  /-- An ill-formed command word (R90), and what follows it: it is 4 bytes long (R92). -/
  | illegal (w : Word) (rest : List PortItem)
  /-- No whole transaction yet: nothing, or an UPDATE whose payload has not all arrived (R215). -/
  | waiting
  /-- An UPDATE whose payload is cut short by the next command word (R215). -/
  | payloadShort
  /-- A payload byte where a command word is due. -/
  | strayByte (b : Byte) (rest : List PortItem)
  deriving DecidableEq, Repr

/-- `RecvCmd()` (R61, 00_scope.md R19): the next transaction of the command port. Its length follows from
`OP` and `LEN` alone (R92). -/
def decode : List PortItem → DecodeResult
  | [] => .waiting
  | .byte b :: rest => .strayByte b rest
  | .word w :: rest =>
    match decodeWord w with
    | none => .illegal w rest
    | some (.init v) => .instr (.init v) rest
    | some (.final n ub) => .instr (.final n ub) rest
    | some (.update len) =>
      match takePayload len.toNat rest with
      | .complete payload rest' => .instr (.update len payload) rest'
      | .missing => .waiting
      | .interrupted => .payloadShort

/-- The fields of a command's word. -/
def Instr.header : Instr → Header
  | .init v => .init v
  | .update len _ => .update len
  | .final n ub => .final n ub

/-- The payload of a command: only UPDATE has one (R80). -/
def Instr.payload : Instr → List Byte
  | .init _ => []
  | .update _ payload => payload
  | .final _ _ => []

/-- The command word of a header, field by field from bit 31 down (R83, R84, R85). -/
def encodeHeader : Header → Word
  | .init v => 0#27 ++ v.bit ++ 0x1#4
  | .update len => len ++ 0#4 ++ 0x2#4
  | .final n ub => 0#8 ++ ub ++ 0#5 ++ n ++ 0#4 ++ 0x3#4

/-- The command word of a command. -/
def encodeWord (i : Instr) : Word := encodeHeader i.header

/-- The items of a transaction: its command word, then its payload bytes (R80). -/
def encode (i : Instr) : List PortItem := .word (encodeWord i) :: i.payload.map .byte

/-- How many payload bytes a command word announces (R80, R92). -/
def payloadLength (w : Word) : Nat :=
  match decodeWord w with
  | some (.update len) => len.toNat
  | _ => 0

/-- The port items of an instruction given as one number, its command word in bits 31..0 and payload byte
`k` in bits `39 + 8k .. 32 + 8k`; only the low `nbits` bits of `w` are the instruction's, so bits above
them are 0. (The payload of a table word is therefore `LEN` zero bytes.) -/
def tableItems (nbits w : Nat) : List PortItem :=
  let v := w % 2 ^ nbits
  let word : Word := BitVec.ofNat 32 v
  .word word ::
    (List.range (payloadLength word)).map fun k => .byte (BitVec.ofNat 8 (v >>> (32 + 8 * k)))

/-- The instruction the decoder reads from a word of the opcode table. -/
def decodeTableWord (nbits w : Nat) : Option Instr :=
  match decode (tableItems nbits w) with
  | .instr i _ => some i
  | .illegal _ _ => none
  | .waiting => none
  | .payloadShort => none
  | .strayByte _ _ => none

end Sys2Proof
end

