-- ==== Sys2Proof/Machine/State.lean ====
section
/-! DEFINITION. The state of one engine (10_state.md R30 to R49) with its ports (20_memory.md R60 to R65),
the reasons a step can stop, and the state after reset (R49, 70_reset_and_hazards.md R210).

`⊥` ("holds no value", R31) is `none`: it is the spec's own value of a context field, and reading it is a
fault of the model (R31, decision D33). -/

namespace Sys2Proof.Machine

/-- `CST`, the context state (R38). -/
inductive CtxState
  | uninit
  | active
  | done
  | fault
  deriving DecidableEq, Repr

/-- `FCODE`, the fault code (R39, 60_exceptions.md R181); the codes 4..7 are never produced. -/
inductive FaultCode
  | none
  | illegalCommand
  | notInitialized
  | finalizedContext
  deriving DecidableEq, Repr

/-- The context fields that can hold `⊥` (R31). -/
inductive ContextField
  | h
  | buf
  | blen
  | tbits
  deriving DecidableEq, Repr

/-- Why a step of the model stops. The engine's own faults (R181) are not here: they are NEXT states with
`CST = FAULT`. -/
inductive Fault
  /-- A command read a context field that holds `⊥`. Raised by the reads of `Machine/Ops.lean` (UPDATE and
  FINAL in `ACTIVE`). The spec asks for it (R31, D33: "a model that ever reads one must fault"). Safe: the
  model stops instead of supplying a value; no state that meets `Safety.Inv` reaches it. -/
  | unspecifiedRead (field : ContextField)
  deriving DecidableEq, Repr

/-- Why the model gives no meaning. -/
inductive Refusal
  /-- An instruction without a meaning, by its mnemonic in spec/opcode_table.json. Raised by no arm of this
  model. Safe. -/
  | notModelled (mnemonic : String)
  /-- An UPDATE whose payload does not have the length `LEN` (R215: "a model refuses it"; 93 S9). Raised in
  every context state by the step when a command word cuts the payload short, and by UPDATE's meaning on such
  a term. Safe. -/
  | payloadLength
  /-- A payload byte on the command port where a command word is due and no discarded transaction's payload
  is (R61, R215): a payload longer than `LEN`, in every context state, among them (93 S9). Raised by the
  step. Safe. -/
  | strayPayload
  deriving DecidableEq, Repr

/-- What the host can do at the ports (R61 to R65, 70_reset_and_hazards.md R215, R216, R224). -/
inductive HostAction
  /-- Put a command word on the command port (R61). -/
  | sendWord (w : Word)
  /-- Put a payload byte on the command port (R62). -/
  | sendByte (b : Byte)
  /-- Take the next digest byte from `dout` (R63, R216). -/
  | takeDigestByte
  /-- Read STATUS on the status port (R41, R64). -/
  | readStatus
  /-- Assert `rst` (R65, R210). -/
  | assertReset
  deriving DecidableEq, Repr

/-- One engine, its ports, and the host's side of them. -/
structure State where
  /-- `H[0..7]`, the accumulator (R32); `none` is `⊥`. -/
  h : Option (Vector Word 8)
  /-- `BUF[0..63]`, the block buffer (R33); a byte that is `none` is `⊥`. -/
  buf : Vector (Option Byte) 64
  /-- `BLEN`, the buffered length, 0..63 (R34); `none` is `⊥`. -/
  blen : Option (Fin 64)
  /-- `TBITS`, the bit counter (R36); `none` is `⊥`. -/
  tbits : Option (BitVec 64)
  /-- `VAR`, the variant of the current context (R37). -/
  var : Variant
  /-- `CST`, the context state (R38). -/
  cst : CtxState
  /-- `FCODE`, the fault code (R39). -/
  fcode : FaultCode
  /-- `SUBBYTE_ALIGN`, a parameter of the engine that no step changes (R13, R161). -/
  subbyteAlign : SubbyteAlign
  /-- Command port: what the host has put on it and no completed transaction has used (R61). -/
  cmd : List PortItem
  /-- Command port: the last transaction taken off it was discarded and is no UPDATE, so that payload bytes
  the host attached to it are discarded with it (R92, R185, R189; model's own, log entry 5). -/
  discarding : Bool
  /-- Digest output channel: the digest bytes in transit, next one first (R63, R216). -/
  dout : List Byte
  /-- The host's coming actions at the ports, next one first (model's own: the input of a run). -/
  host : List HostAction
  /-- The bytes the host has taken of the digest in transit, first one first (model's own: R212, R216). -/
  taken : List Byte
  /-- The digests the host has taken to their last byte, first one first (model's own: R223's
  observation). -/
  digests : List (List Byte)
  /-- The values STATUS reads have returned, first one first (model's own: R223's observation). -/
  statusLog : List Word
  deriving DecidableEq, Repr

/-- A buffer of which no byte is valid (R49, R111). -/
def emptyBuf : Vector (Option Byte) 64 := Vector.replicate 64 none

/-- The state after reset (R49): `CST = UNINIT`, `VAR = 0`, `FCODE = 0`, the context fields `⊥`, `dout`
empty; the parameter at the spec's default (R13); nothing on the command port, no host action and nothing
observed yet (log entries 3 and 9). -/
def State.reset : State where
  h := none
  buf := emptyBuf
  blen := none
  tbits := none
  var := .sha256
  cst := .uninit
  fcode := .none
  subbyteAlign := Config.subbyteAlignDefault
  cmd := []
  discarding := false
  dout := []
  host := []
  taken := []
  digests := []
  statusLog := []

end Sys2Proof.Machine
end

