-- ==== Sys2Proof/Machine/Operands.lean ====
section
/-! DEFINITION. The operand forms and byte orders: byte/word conversion (00_scope.md R18, 20_memory.md R66,
R67) and FINAL's extra bits, sentinel byte and length value (42_finalize.md R161 to R163). -/

namespace Sys2Proof.Machine

/-- `be32(b0, b1, b2, b3)` (R18): four bytes in stream order to a word, first byte most significant. -/
def be32 (b0 b1 b2 b3 : Byte) : Word :=
  (b0.setWidth 32 <<< 24) ||| (b1.setWidth 32 <<< 16) ||| (b2.setWidth 32 <<< 8) ||| b3.setWidth 32

/-- `ser32(w)` (R18): the bytes `w[31:24], w[23:16], w[15:8], w[7:0]`. -/
def ser32 (w : Word) : List Byte :=
  [w.extractLsb' 24 8, w.extractLsb' 16 8, w.extractLsb' 8 8, w.extractLsb' 0 8]

/-- `ser64(v)` (R18): the bytes `v[63:56], ..., v[7:0]`. -/
def ser64 (v : BitVec 64) : Vector Byte 8 :=
  Vector.ofFn fun i : Fin 8 => v.extractLsb' (56 - 8 * i.val) 8

/-- `ExtraBits(N, UB)` (R161): the `N` extra bits at the top of a byte, first one in bit 7, the rest 0. -/
def extraBits (align : SubbyteAlign) (n : BitVec 3) (ub : Byte) : Byte :=
  if n = 0 then 0x00#8
  else
    match align with
    | .low => BitVec.ofNat 8 (ub.toNat % 2 ^ n.toNat) <<< (8 - n.toNat)
    | .high => ub &&& (0xFF#8 <<< (8 - n.toNat))

/-- The sentinel byte `S = X | (0x80 >> N)` (R162). -/
def sentinel (align : SubbyteAlign) (n : BitVec 3) (ub : Byte) : Byte :=
  extraBits align n ub ||| (0x80#8 >>> n.toNat)

/-- `LBIT = (TBITS + N) mod 2^64` (R163). -/
def lengthValue (tbits : BitVec 64) (n : BitVec 3) : BitVec 64 := tbits + n.setWidth 64

end Sys2Proof.Machine
end

