-- ==== Sys2Proof/Machine/Compression.lean ====
section
/-! DEFINITION. The compression transform, its word operations and its message schedule
(41_compression.md R130 to R145). Everything here is a total function of its arguments: it reads and writes
no state (R145). The working variables, the schedule and the round index live only inside it
(10_state.md R42 to R44). -/

namespace Sys2Proof.Machine

/-- `rotr(x, n)` for `0 < n < 32` (R130). -/
def rotr (x : Word) (n : Nat) : Word := (x >>> n) ||| (x <<< (32 - n))

/-- `Σ0` (R131). -/
def bigSigma0 (x : Word) : Word := rotr x 2 ^^^ rotr x 13 ^^^ rotr x 22

/-- `Σ1` (R132). -/
def bigSigma1 (x : Word) : Word := rotr x 6 ^^^ rotr x 11 ^^^ rotr x 25

/-- `σ0` (R133). -/
def smallSigma0 (x : Word) : Word := rotr x 7 ^^^ rotr x 18 ^^^ (x >>> 3)

/-- `σ1` (R134). -/
def smallSigma1 (x : Word) : Word := rotr x 17 ^^^ rotr x 19 ^^^ (x >>> 10)

/-- `Ch(e, f, g)` (R135). -/
def ch (e f g : Word) : Word := (e &&& f) ^^^ (~~~e &&& g)

/-- `Maj(a, b, c)` (R136). -/
def maj (a b c : Word) : Word := (a &&& b) ^^^ (a &&& c) ^^^ (b &&& c)

/-- Schedule words 0..15 from the block, the others not yet expanded (R140). -/
def blockWords (b : Vector Byte 64) : Vector Word 64 :=
  Vector.ofFn fun t : Fin 64 =>
    if _h : t.val < 16 then be32 b[4 * t.val] b[4 * t.val + 1] b[4 * t.val + 2] b[4 * t.val + 3] else 0

/-- One expansion step (R141): writes `W[t]` for `t = i + 16` from `W[t-2]`, `W[t-7]`, `W[t-15]`, `W[t-16]`. -/
def expandWord (w : Vector Word 64) (i : Fin 48) : Vector Word 64 :=
  w.set (i.val + 16)
    (smallSigma1 w[i.val + 14] + w[i.val + 9] + smallSigma0 w[i.val + 1] + w[i.val])

/-- The message schedule `W[0..63]` of a block: R140, then R141 for `t` = 16, ..., 63 in order. -/
def schedule (b : Vector Byte 64) : Vector Word 64 := (List.finRange 48).foldl expandWord (blockWords b)

/-- The working variables `a..h` (R42). -/
structure Work where
  a : Word
  b : Word
  c : Word
  d : Word
  e : Word
  f : Word
  g : Word
  h : Word
  deriving DecidableEq, Repr

/-- `T1` of a round (R143). -/
def roundT1 (v : Work) (k w : Word) : Word := v.h + bigSigma1 v.e + ch v.e v.f v.g + k + w

/-- `T2` of a round (R143). -/
def roundT2 (v : Work) : Word := bigSigma0 v.a + maj v.a v.b v.c

/-- One round with round constant `k` and schedule word `w` (R143); all right-hand sides read the values
from before the round. -/
def shaRound (v : Work) (k w : Word) : Work where
  a := roundT1 v k w + roundT2 v
  b := v.a
  c := v.b
  d := v.c
  e := v.d + roundT1 v k w
  f := v.e
  g := v.f
  h := v.g

/-- The working variables at the start of a compression (R142). -/
def Work.ofAccumulator (h : Vector Word 8) : Work := ⟨h[0], h[1], h[2], h[3], h[4], h[5], h[6], h[7]⟩

/-- The 64 rounds in order (R143). -/
def rounds (w : Vector Word 64) (v : Work) : Work :=
  (List.finRange 64).foldl (fun v t => shaRound v roundK[t] w[t]) v

/-- Feed-forward (R144). -/
def feedForward (h : Vector Word 8) (v : Work) : Vector Word 8 :=
  #v[h[0] + v.a, h[1] + v.b, h[2] + v.c, h[3] + v.d, h[4] + v.e, h[5] + v.f, h[6] + v.g, h[7] + v.h]

/-- `COMPRESS(H, B)` (R145). -/
def compress (h : Vector Word 8) (b : Vector Byte 64) : Vector Word 8 :=
  feedForward h (rounds (schedule b) (Work.ofAccumulator h))

end Sys2Proof.Machine
end

