-- ==== Sys2Proof/Machine/Flags.lean ====
section
/-! DEFINITION. The status register (10_state.md R38 to R41) and what the status port returns
(70_reset_and_hazards.md R217). The engine has no arithmetic flags. -/

namespace Sys2Proof.Machine

/-- The encoding of `CST` (R38). -/
def CtxState.code : CtxState → BitVec 2
  | .uninit => 0
  | .active => 1
  | .done => 2
  | .fault => 3

/-- The encoding of `FCODE` (R181). -/
def FaultCode.code : FaultCode → BitVec 3
  | .none => 0
  | .illegalCommand => 1
  | .notInitialized => 2
  | .finalizedContext => 3

/-- `STATUS = (FCODE << 4) | (VAR << 2) | CST` (R40). -/
def statusWord (cst : CtxState) (var : Variant) (fcode : FaultCode) : Word :=
  (fcode.code.setWidth 32 <<< 4) ||| (var.bit.setWidth 32 <<< 2) ||| cst.code.setWidth 32

/-- The STATUS register of a state (R40). -/
def State.status (s : State) : Word := statusWord s.cst s.var s.fcode

/-- What a STATUS read returns (R41, R217): the register, except that while a FINAL's digest is in transit
it is the value before that FINAL, which ran in `ACTIVE` with the same `VAR` and no fault. -/
def State.statusPort (s : State) : Word :=
  match s.dout with
  | [] => s.status
  | _ :: _ => statusWord .active s.var .none

end Sys2Proof.Machine
end

