-- ==== Sys2Proof/Machine/Ops.lean ====
section
/-! DEFINITION. The named operations on the context and the ports: reads of context fields (a read of `⊥`
is a fault of the model, 10_state.md R31), buffer writes (R33), fault entry (60_exceptions.md R185), the
preamble of every command (R187), reset (70_reset_and_hazards.md R210), `AbsorbByte` (40_init_update.md
R113), and `SendDigest` (00_scope.md R19). -/

namespace Sys2Proof.Machine

/-- The three outcomes of a step of this model. -/
abbrev Result := Host.Outcome State Fault Refusal

/-- A computation on the context that may have read `⊥`, as a step's outcome. -/
def outcomeOf : Except Fault State → Result
  | .ok s => .next s
  | .error f => .fault f

/-- The value a context field holds; a read of `⊥` is a fault (R31, D33). -/
def readField {α : Type} (field : ContextField) : Option α → Except Fault α
  | some v => .ok v
  | none => .error (.unspecifiedRead field)

/-- All 64 bytes of a buffer, if every one holds a value (R145: a compression reads every byte). -/
def fullBlock (buf : Vector (Option Byte) 64) : Option (Vector Byte 64) :=
  if h : ∀ i : Fin 64, (buf[i]).isSome then some (Vector.ofFn fun i => (buf[i]).get (h i)) else none

/-- `for i in lo..hi: BUF[i] <- 0x00`; nothing when `hi < lo` (R160, R164). -/
def zeroFill (buf : Vector (Option Byte) 64) (lo hi : Nat) : Vector (Option Byte) 64 :=
  Vector.ofFn fun i : Fin 64 => if lo ≤ i.val ∧ i.val ≤ hi then some 0#8 else buf[i]

/-- `BUF[56..63] <- ser64(v)` (R67, R165). -/
def putLength (buf : Vector (Option Byte) 64) (v : BitVec 64) : Vector (Option Byte) 64 :=
  Vector.ofFn fun i : Fin 64 => if _h : 56 ≤ i.val then some (ser64 v)[i.val - 56] else buf[i]

/-- The initial vector of a variant (R111, R138, R139). -/
def initialVector : Variant → Vector Word 8
  | .sha256 => iv256
  | .sha224 => iv224

/-- The number of digest words of a variant: 8 or 7 (R166). -/
def digestWords : Variant → Nat
  | .sha256 => 8
  | .sha224 => 7

/-- The digest: the first 8 or 7 accumulator words, big-endian, `H[0]` first (R67, R166). -/
def digestBytes (v : Variant) (h : Vector Word 8) : List Byte := (h.toList.take (digestWords v)).flatMap ser32

/-- `SendDigest(bytes)` (R19, R63). -/
def sendDigest (bytes : List Byte) (s : State) : State := { s with dout := s.dout ++ bytes }

/-- `H, BUF, BLEN, TBITS <- ⊥` (R167). -/
def clearContext (s : State) : State := { s with h := none, buf := emptyBuf, blen := none, tbits := none }

/-- Taking an engine fault: `raise Fault(code)` (R185). `FCODE` and `CST` are written and nothing else; the
transaction has already been taken off the command port, with its payload. -/
def raiseFault (code : FaultCode) (s : State) : State := { s with fcode := code, cst := .fault }

/-- The checks of the preamble (R187) that a well-formed word can meet, before the command `body` runs.
`usesContext` holds for UPDATE and FINAL. Its step 2 (an ill-formed word) is `illegalCommand`. -/
def preamble (usesContext : Bool) (s : State) (body : State → Result) : Result :=
  match s.cst with
  | .fault => .next s
  | .active => body s
  | .uninit => if usesContext then .next (raiseFault .notInitialized s) else body s
  | .done => if usesContext then .next (raiseFault .finalizedContext s) else body s

/-- An ill-formed command word (R182, R187 steps 1 and 2): `ILLEGAL_COMMAND`, and in `FAULT` nothing. -/
def illegalCommand (s : State) : State :=
  match s.cst with
  | .fault => s
  | .uninit => raiseFault .illegalCommand s
  | .active => raiseFault .illegalCommand s
  | .done => raiseFault .illegalCommand s

/-- Whether the preamble (R187) discards this command with whatever payload the host attached to it (R92,
R185, R189). An UPDATE is not meant, whatever becomes of it: `LEN` bytes are its payload, and it may have no
other (R215, D23). -/
def discardsPayload (i : Instr) (cst : CtxState) : Bool :=
  match i with
  | .init _ => decide (cst = .fault)
  | .update _ _ => false
  | .final _ _ => decide (cst ≠ .active)

/-- A payload byte where a command word is due: behind a discarded transaction that is no UPDATE it is payload
the host attached to that, and is discarded with it (R92); elsewhere, behind an UPDATE of any context state
among them, the host may not send it (R215, 93 S9; log entry 5). -/
def strayByte (s : State) : Result :=
  match s.discarding with
  | true => .next s
  | false => .refused .strayPayload

/-- Compress the block in `buf` into `H` and start an empty buffer (R113's compression; R33: the bytes
`BUF[BLEN..63]` hold no value, so with `BLEN = 0` none does; log entry 2). -/
def compressFullBuffer (buf : Vector (Option Byte) 64) (s : State) : Except Fault State := do
  let h ← readField .h s.h
  let block ← readField .buf (fullBlock buf)
  return { s with h := some (compress h block), buf := emptyBuf, blen := some 0 }

/-- `AbsorbByte(b)` (R113). -/
def absorbByte (b : Byte) (s : State) : Except Fault State := do
  let n ← readField .blen s.blen
  let buf := s.buf.set n.val (some b)
  if h : n.val + 1 < 64 then
    return { s with buf := buf, blen := some ⟨n.val + 1, h⟩ }
  else
    compressFullBuffer buf s

/-- The loop of UPDATE: `AbsorbByte` on each byte in order (R112). -/
def absorbBytes : List Byte → State → Except Fault State
  | [], s => .ok s
  | b :: bs, s => do
    let s' ← absorbByte b s
    absorbBytes bs s'

/-- `TBITS <- (TBITS + 8 * LEN) mod 2^64` (R112, R116). -/
def countBytes (len : Nat) (s : State) : Except Fault State := do
  let t ← readField .tbits s.tbits
  return { s with tbits := some (t + BitVec.ofNat 64 (8 * len)) }

/-- Reset (R210): the engine's fields go to the values of R49 and `dout` is emptied. A transaction in
progress is abandoned (R212): a FINAL whose digest is in transit, of which the host discards the bytes it has
taken, or else an UPDATE whose payload has partly arrived, which is then all that stands on the command port.
Words that wait behind a FINAL have not been taken yet and stay (log entry 7). -/
def assertReset (s : State) : State :=
  { State.reset with
    subbyteAlign := s.subbyteAlign
    cmd := match s.dout with
      | [] => []
      | _ :: _ => s.cmd
    host := s.host
    digests := s.digests
    statusLog := s.statusLog }

/-- The host takes the next digest byte off `dout` (R63, R216). With the last one the digest has been taken
(R223); without a digest in transit the host gets nothing (log entry 11). -/
def takeDigestByte (s : State) : State :=
  match s.dout with
  | [] => s
  | [b] => { s with dout := [], taken := [], digests := s.digests ++ [s.taken ++ [b]] }
  | b :: c :: rest => { s with dout := c :: rest, taken := s.taken ++ [b] }

/-- One action of the host at a port. -/
def hostAct : HostAction → State → State
  | .sendWord w, s => { s with cmd := s.cmd ++ [.word w] }
  | .sendByte b, s => { s with cmd := s.cmd ++ [.byte b] }
  | .takeDigestByte, s => takeDigestByte s
  | .readStatus, s => { s with statusLog := s.statusLog ++ [s.statusPort] }
  | .assertReset, s => assertReset s

/-- The engine waits (R200, R215, R216): the host's next action happens; with none left, nothing changes. -/
def hostTurn (s : State) : State :=
  match s.host with
  | [] => s
  | a :: rest => hostAct a { s with host := rest }

end Sys2Proof.Machine
end

