-- ==== Sys2Proof/Machine/Finalize.lean ====
section
/-! DEFINITION. The meaning of FINAL (42_finalize.md R160 to R170). -/

namespace Sys2Proof.Machine

/-- `H <- COMPRESS(H, BUF)` on a padded buffer (R164, R165). -/
def compressPadded (h : Vector Word 8) (buf : Vector (Option Byte) 64) : Except Fault (Vector Word 8) := do
  let block ← readField .buf (fullBlock buf)
  return compress h block

/-- Padding and the last compressions (R162 to R165): `buf` holds `n` message bytes, `x` is the sentinel
byte and `lbit` the length value. Answers the final accumulator. -/
def padAndCompress (h : Vector Word 8) (buf : Vector (Option Byte) 64) (n : Fin 64) (x : Byte)
    (lbit : BitVec 64) : Except Fault (Vector Word 8) :=
  let buf := buf.set n.val (some x)
  let used := n.val + 1
  if used > 56 then do
    let spilled := zeroFill buf used 63
    let h' ← compressPadded h spilled
    compressPadded h' (putLength (zeroFill spilled 0 55) lbit)
  else
    compressPadded h (putLength (zeroFill buf used 55) lbit)

/-- The pseudocode of FINAL in `ACTIVE` (R160). -/
def finalizeContext (n : BitVec 3) (ub : Byte) (s : State) : Except Fault State := do
  let t ← readField .tbits s.tbits
  let used ← readField .blen s.blen
  let h ← readField .h s.h
  let h' ← padAndCompress h s.buf used (sentinel s.subbyteAlign n ub) (lengthValue t n)
  let s := sendDigest (digestBytes s.var h') s
  return { clearContext s with cst := .done }

/-- FINAL (R160). -/
def execFinal (n : BitVec 3) (ub : Byte) (s : State) : Result :=
  preamble true s fun s => outcomeOf (finalizeContext n ub s)

end Sys2Proof.Machine
end

