-- ==== Sys2Proof/Machine/InitUpdate.lean ====
section
/-! DEFINITION. The meanings of INIT and UPDATE (40_init_update.md R110 to R116). -/

namespace Sys2Proof.Machine

/-- The pseudocode of INIT (R111). -/
def initContext (v : Variant) (s : State) : State :=
  { s with
    var := v
    h := some (initialVector v)
    blen := some 0
    tbits := some 0
    buf := emptyBuf
    cst := .active }

/-- INIT (R111): accepted in `UNINIT`, `ACTIVE` and `DONE`; discarded in `FAULT`. -/
def execInit (v : Variant) (s : State) : Result := preamble false s fun s => .next (initContext v s)

/-- The pseudocode of UPDATE in `ACTIVE` (R112). -/
def absorbChunk (len : BitVec 24) (payload : List Byte) (s : State) : Except Fault State := do
  let s' ← absorbBytes payload s
  countBytes len.toNat s'

/-- UPDATE (R112). A payload that does not have `LEN` bytes is one the host may not send, whatever the context
state (R215, 93 S9). -/
def execUpdate (len : BitVec 24) (payload : List Byte) (s : State) : Result :=
  if payload.length = len.toNat then preamble true s fun s => outcomeOf (absorbChunk len payload s)
  else .refused .payloadLength

end Sys2Proof.Machine
end

