-- ==== Sys2Proof/Machine/Dispatch.lean ====
section
/-! DEFINITION. One arm per command (30_encoding.md R82). -/

namespace Sys2Proof.Machine

def exec (i : Instr) (s : State) : Host.Outcome State Fault Refusal :=
  match i with
  | .init v => Sys2Proof.Machine.execInit v s
  | .update len payload => Sys2Proof.Machine.execUpdate len payload s
  | .final n ub => Sys2Proof.Machine.execFinal n ub s

end Sys2Proof.Machine
end

