-- ==== Sys2Proof/Machine/Fetch.lean ====
section
/-! DEFINITION. Taking the next transaction off the command port (20_memory.md R61, R74) and what one step
of the engine with its host does. -/

namespace Sys2Proof.Machine

/-- Take the next transaction off the command port and run it (R187); whether payload attached to it is discarded
with it is kept for the bytes that follow (R92; log entry 5). While there is none, the engine waits
and the host's next action happens (R200, R215). -/
def takeTransaction (s : State) : Result :=
  match decode s.cmd with
  | .instr i rest => exec i { s with cmd := rest, discarding := discardsPayload i s.cst }
  | .illegal _ rest => .next (illegalCommand { s with cmd := rest, discarding := true })
  | .strayByte _ rest => strayByte { s with cmd := rest }
  | .payloadShort => .refused .payloadLength
  | .waiting => .next (hostTurn s)

/-- One step: while a FINAL's digest is in transit the engine takes no transaction (70_reset_and_hazards.md
R216). Otherwise a whole transaction on the command port runs to completion in this step (00_scope.md R6,
20_memory.md R70). -/
def advance (s : State) : Result :=
  match s.dout with
  | [] => takeTransaction s
  | _ :: _ => .next (hostTurn s)

end Sys2Proof.Machine
end

