-- ==== Sys2Proof/Machine/Step.lean ====
section
/-! DEFINITION. One step, and placing an instruction where the step takes its next transaction from. -/

namespace Sys2Proof.Machine

/-- One step of the engine and its host (`Machine/Fetch.lean`). -/
def step (s : State) : Host.Outcome State Fault Refusal := advance s

/-- `s` with an instruction of the opcode table at the front of the command port and with no digest in
transit (and none of its bytes taken), so that the next step takes and runs it (log entry 9). -/
def State.withFetchWord (s : State) (nbits w : Nat) : State :=
  { s with cmd := tableItems nbits w ++ s.cmd, dout := [], taken := [] }

end Sys2Proof.Machine
end

