-- ==== Sys2Proof/Machine/Assembler.lean ====
section
/-! DEFINITION. The assembler syntax of the spec (30_encoding.md R93 to R98): a line's grammar, the
pseudo-instructions and their expansion, disassembly and the listing form. No step of the engine uses it. Text
is a list of characters. What the spec leaves open of the syntax is log entry 13. -/

namespace Sys2Proof.Machine.Assembler

/-- One line of assembler: the native forms (R93 to R95) and the pseudo-instructions (R96). `UPDATE` takes
data of any length here; longer data than one chunk is the pseudo-instruction. -/
inductive Asm
  | init (v : Variant)
  | update (data : List Byte)
  | final (n : BitVec 3) (ub : Byte)
  | finalAligned
  | hash (v : Variant) (data : List Byte)
  | hashBits (v : Variant) (data : List Byte) (n : BitVec 3) (ub : Byte)
  deriving DecidableEq, Repr

/-- Split data into chunks of at most `chunk` bytes (R96): one chunk if it fits, else the first `chunk` bytes
and the rest again. `fuel` bounds the number of splits; the length of the data suffices. -/
def splitData (chunk : Nat) : Nat → List Byte → List (List Byte)
  | 0, data => [data]
  | fuel + 1, data =>
    if data.length ≤ chunk then [data] else data.take chunk :: splitData chunk fuel (data.drop chunk)

/-- The native `UPDATE` of at most `Config.maxChunk` bytes (R94). -/
def updateOf (data : List Byte) : Instr := .update (BitVec.ofNat 24 data.length) data

/-- `UPDATE <data>` for data of any length (R94, R96). -/
def updates (data : List Byte) : List Instr := (splitData Config.maxChunk data.length data).map updateOf

/-- The commands a line stands for (R93 to R96). -/
def Asm.expand : Asm → List Instr
  | .init v => [.init v]
  | .update data => updates data
  | .final n ub => [.final n ub]
  | .finalAligned => [.final 0 0]
  | .hash v data => .init v :: (updates data ++ [.final 0 0])
  | .hashBits v data n ub => .init v :: (updates data ++ [.final n ub])

/-! ### Disassembly (R98) and listing (R97) -/

/-- A hexadecimal digit; lower case, as the spec's examples write them. -/
def hexDigit (n : Nat) : Char :=
  if n < 10 then Char.ofNat (48 + n) else Char.ofNat (87 + n)

/-- A byte as a hex pair (R15). -/
def hexByte (b : Byte) : List Char := [hexDigit (b.toNat / 16), hexDigit (b.toNat % 16)]

/-- A word as 8 hex digits, most significant first (R15). -/
def hexWord (w : Word) : List Char :=
  hexByte (w.extractLsb' 24 8) ++ hexByte (w.extractLsb' 16 8) ++ hexByte (w.extractLsb' 8 8) ++
    hexByte (w.extractLsb' 0 8)

/-- The name of a variant in the syntax (R93). -/
def variantName : Variant → List Char
  | .sha256 => ['S', 'H', 'A', '2', '5', '6']
  | .sha224 => ['S', 'H', 'A', '2', '2', '4']

def nameInit : List Char := ['I', 'N', 'I', 'T']
def nameUpdate : List Char := ['U', 'P', 'D', 'A', 'T', 'E']
def nameFinal : List Char := ['F', 'I', 'N', 'A', 'L']
def nameHash256 : List Char := ['H', 'A', 'S', 'H', '2', '5', '6']
def nameHash224 : List Char := ['H', 'A', 'S', 'H', '2', '2', '4']
def nameHashBits256 : List Char := ['H', 'A', 'S', 'H', 'B', 'I', 'T', 'S', '2', '5', '6']
def nameHashBits224 : List Char := ['H', 'A', 'S', 'H', 'B', 'I', 'T', 'S', '2', '2', '4']

/-- The apostrophe of `x'6162'`, the double quote and the backslash of `"..."` (R94). -/
def apostrophe : Char := Char.ofNat 39
def doubleQuote : Char := Char.ofNat 34
def backslash : Char := Char.ofNat 92

/-- A hex byte list `x'616263'` (R94, R98). -/
def hexData (data : List Byte) : List Char := 'x' :: apostrophe :: (data.flatMap hexByte ++ [apostrophe])

/-- The text of a command (R98). -/
def disassemble : Instr → List Char
  | .init v => nameInit ++ ' ' :: variantName v
  | .update _ payload => nameUpdate ++ ' ' :: hexData payload
  | .final n ub =>
    if n = 0 ∧ ub = 0 then nameFinal
    else nameFinal ++ ' ' :: hexDigit n.toNat :: ',' :: ' ' :: '0' :: 'x' :: hexByte ub

/-- The text of an ill-formed word (R98). -/
def disassembleIllegal (w : Word) : List Char :=
  ['.', 'w', 'o', 'r', 'd', ' ', '0', 'x'] ++ hexWord w ++ [' ', ';', ' ', 'i', 'l', 'l', 'e', 'g', 'a', 'l']

/-- One line of a listing (R97): the command word, after `|` the payload bytes, and the command's text. Which text
that is R97 does not say, and its example shows the source line `UPDATE "abc"`: the model, which knows the
command and not its source line, prints the disassembly `UPDATE x'616263'` (DESIGN CHOICE, log entry 13). -/
def listingLine (i : Instr) : List Char :=
  let bytes := match i.payload with
    | [] => []
    | b :: rest => ' ' :: '|' :: ((b :: rest).flatMap fun x => ' ' :: hexByte x)
  hexWord (encodeWord i) ++ bytes ++ [' ', ' ', ' ', ' '] ++ disassemble i

/-! ### Reading a line (R93 to R97) -/

/-- What a line is cut into. -/
inductive Token
  | name (text : List Char)
  | data (bytes : List Byte)
  | comma
  deriving DecidableEq, Repr

/-- Where the reader of a line stands; collected characters and bytes are in reverse order. -/
inductive Mode
  /-- Between tokens. -/
  | idle
  /-- In a name or a number. -/
  | name (acc : List Char)
  /-- In a quoted string. -/
  | quoted (acc : List Byte)
  /-- After a backslash in a quoted string. -/
  | escape (acc : List Byte)
  /-- After `\x` in a quoted string, with the first hex digit if it has been read. -/
  | escapeHex (acc : List Byte) (first : Option Nat)
  /-- In a hex byte list, with the first digit of a pair if it has been read. -/
  | hexList (acc : List Byte) (first : Option Nat)
  deriving DecidableEq, Repr

/-- The value of a decimal digit. -/
def decimalValue (c : Char) : Option Nat :=
  if 48 ≤ c.toNat ∧ c.toNat ≤ 57 then some (c.toNat - 48) else none

/-- The value of a hexadecimal digit, of either case. -/
def hexValue (c : Char) : Option Nat :=
  if 48 ≤ c.toNat ∧ c.toNat ≤ 57 then some (c.toNat - 48)
  else if 97 ≤ c.toNat ∧ c.toNat ≤ 102 then some (c.toNat - 87)
  else if 65 ≤ c.toNat ∧ c.toNat ≤ 70 then some (c.toNat - 55)
  else none

/-- Cut a line into tokens; `none` is an assembly error. A `;` outside a quoted string starts a comment
(R97). -/
def lex : Mode → List Char → Option (List Token)
  | .idle, [] => some []
  | .name acc, [] => some [.name acc.reverse]
  | .quoted _, [] => none
  | .escape _, [] => none
  | .escapeHex _ _, [] => none
  | .hexList _ _, [] => none
  | .idle, c :: cs =>
    if c = ';' then some []
    else if c = ' ' then lex .idle cs
    else if c = ',' then (lex .idle cs).map (Token.comma :: ·)
    else if c = doubleQuote then lex (.quoted []) cs
    else lex (.name [c]) cs
  | .name acc, c :: cs =>
    if c = ';' then some [.name acc.reverse]
    else if c = ' ' then (lex .idle cs).map (Token.name acc.reverse :: ·)
    else if c = ',' then (lex .idle cs).map fun ts => Token.name acc.reverse :: Token.comma :: ts
    else if c = apostrophe ∧ acc = ['x'] then lex (.hexList [] none) cs
    else lex (.name (c :: acc)) cs
  | .quoted acc, c :: cs =>
    if c = doubleQuote then (lex .idle cs).map (Token.data acc.reverse :: ·)
    else if c = backslash then lex (.escape acc) cs
    else if c.toNat < 128 then lex (.quoted (BitVec.ofNat 8 c.toNat :: acc)) cs
    else none
  | .escape acc, c :: cs =>
    if c = 'x' then lex (.escapeHex acc none) cs
    else if c = backslash ∨ c = doubleQuote then lex (.quoted (BitVec.ofNat 8 c.toNat :: acc)) cs
    else none
  | .escapeHex acc none, c :: cs =>
    match hexValue c with
    | some v => lex (.escapeHex acc (some v)) cs
    | none => none
  | .escapeHex acc (some hi), c :: cs =>
    match hexValue c with
    | some v => lex (.quoted (BitVec.ofNat 8 (16 * hi + v) :: acc)) cs
    | none => none
  | .hexList acc none, c :: cs =>
    if c = ' ' then lex (.hexList acc none) cs
    else if c = apostrophe then (lex .idle cs).map (Token.data acc.reverse :: ·)
    else
      match hexValue c with
      | some v => lex (.hexList acc (some v)) cs
      | none => none
  | .hexList acc (some hi), c :: cs =>
    if c = ' ' then lex (.hexList acc (some hi)) cs
    else
      match hexValue c with
      | some v => lex (.hexList (BitVec.ofNat 8 (16 * hi + v) :: acc) none) cs
      | none => none

/-- The digits of a number in a base, most significant first, added to `acc`. -/
def digits (value : Char → Option Nat) (base : Nat) : Nat → List Char → Option Nat
  | acc, [] => some acc
  | acc, c :: cs =>
    match value c with
    | some v => digits value base (base * acc + v) cs
    | none => none

/-- A decimal number, or a hexadecimal one after `0x` (R95). R95 does not say how many digits either has: the model
reads any number of them, at least one, leading zeros included (DESIGN CHOICE, log entry 13). -/
def number : List Char → Option Nat
  | [] => none
  | '0' :: 'x' :: c :: cs => digits hexValue 16 0 (c :: cs)
  | cs => digits decimalValue 10 0 cs

/-- FINAL's `n`: a decimal 0..7 (R95), of any number of digits (DESIGN CHOICE, log entry 13). -/
def numberN (cs : List Char) : Option (BitVec 3) :=
  match cs with
  | [] => none
  | _ :: _ =>
    match digits decimalValue 10 0 cs with
    | some v => if v ≤ 7 then some (BitVec.ofNat 3 v) else none
    | none => none

/-- FINAL's `ub`: a byte, `0x..` or decimal 0..255 (R95). Only the value is bounded, not the number of digits, so
`0x5`, `0x0005` and `007` are read too (DESIGN CHOICE, log entry 13). -/
def numberUb (cs : List Char) : Option Byte :=
  match number cs with
  | some v => if v ≤ 255 then some (BitVec.ofNat 8 v) else none
  | none => none

/-- `INIT`'s operand (R93); it is required. -/
def variantOf (cs : List Char) : Option Variant :=
  if cs = variantName .sha256 then some .sha256
  else if cs = variantName .sha224 then some .sha224
  else none

/-- `HASH256` and `HASH224` (R96). -/
def hashVariant (cs : List Char) : Option Variant :=
  if cs = nameHash256 then some .sha256 else if cs = nameHash224 then some .sha224 else none

/-- `HASHBITS256` and `HASHBITS224` (R96). -/
def hashBitsVariant (cs : List Char) : Option Variant :=
  if cs = nameHashBits256 then some .sha256 else if cs = nameHashBits224 then some .sha224 else none

/-- The grammar of a line (R93 to R96); `none` is an assembly error. An empty line and one that is only a comment
have no tokens; what they assemble to R97 does not say, and the model calls them an assembly error and not an
empty list of commands (DESIGN CHOICE, log entry 13). -/
def parseTokens : List Token → Option Asm
  | [.name op] => if op = nameFinal then some .finalAligned else none
  | [.name op, .name operand] => if op = nameInit then (variantOf operand).map .init else none
  | [.name op, .data d] =>
    if op = nameUpdate then some (.update d) else (hashVariant op).map fun v => .hash v d
  | [.name op, .name n, .comma, .name ub] =>
    if op = nameFinal then
      match numberN n, numberUb ub with
      | some n, some ub => some (.final n ub)
      | _, _ => none
    else none
  | [.name op, .data d, .comma, .name n, .comma, .name ub] =>
    match hashBitsVariant op, numberN n, numberUb ub with
    | some v, some n, some ub => some (.hashBits v d n ub)
    | _, _, _ => none
  | _ => none

/-- Read one line. -/
def parseLine (line : List Char) : Option Asm := (lex .idle line).bind parseTokens

/-- The commands a line of text stands for (R93 to R96). -/
def assemble (line : List Char) : Option (List Instr) := (parseLine line).map Asm.expand

/-- How the host sends a command: its word, then its payload bytes (R61, R62). -/
def sendCommand (i : Instr) : List HostAction :=
  (encode i).map fun
    | .word w => .sendWord w
    | .byte b => .sendByte b

end Sys2Proof.Machine.Assembler
end

