-- ==== Sys2Proof/Machine/Platform.lean ====
section
/-! DEFINITION. A platform of `NUM_ENGINES` independent engines (00_scope.md R13; 20_memory.md R79;
60_exceptions.md R198): each has its own state and ports, and only the constant tables are common. The host
interface's machine is one engine; this file says how several stand side by side. -/

namespace Sys2Proof.Machine

/-- The engines of a platform, of which there is at least one, and where it maps their ports (R13). -/
structure Platform where
  /-- `ENGINE_BASE` (R72: the rules never depend on it). -/
  engineBase : Option Nat
  first : State
  further : List State
  deriving DecidableEq, Repr

/-- All engines of a platform. -/
def Platform.engines (p : Platform) : List State := p.first :: p.further

/-- `NUM_ENGINES` of a platform (R13). -/
def Platform.numEngines (p : Platform) : Nat := p.engines.length

/-- The platform with `s` in the place of engine `k`. -/
def Platform.setEngine (p : Platform) (k : Nat) (s : State) : Platform :=
  match k with
  | 0 => { p with first := s }
  | j + 1 => { p with further := p.further.set j s }

/-- One step of engine `k`: it changes engine `k` and no other (R79). A stop of engine `k` stops the step;
there is no engine `k` from `NUM_ENGINES` on. -/
def Platform.stepEngine (p : Platform) (k : Nat) : Option (Host.Outcome Platform Fault Refusal) :=
  match p.engines[k]? with
  | none => none
  | some s =>
    match step s with
    | .next s' => some (.next (p.setEngine k s'))
    | .fault f => some (.fault f)
    | .refused r => some (.refused r)

/-- A platform right after reset: every engine starts from its own reset (R198), with the platform's
parameters (R13). -/
def Platform.reset (c : Config.Parameters) : Platform where
  engineBase := c.engineBase
  first := { State.reset with subbyteAlign := c.subbyteAlign }
  further := List.replicate c.furtherEngines { State.reset with subbyteAlign := c.subbyteAlign }

end Sys2Proof.Machine
end

