-- ==== Sys2Proof/Machine/Reference.lean ====
section
/-! DEFINITION. The standard's digest of a bit string, written without the engine's buffer: bits, padding to
a multiple of 512, blocks, one fold of the compression (00_scope.md R2, 42_finalize.md R169). It is what the
statements about digests compare the engine with; no step uses it. -/

namespace Sys2Proof.Machine.Reference

/-- The bits of a byte, the first one its most significant (R161: "first extra bit in bit 7"). -/
def byteBits (b : Byte) : List Bool := (List.range 8).map fun i => b.getMsbD i

/-- The bits of a byte string in stream order. -/
def messageBits (m : List Byte) : List Bool := m.flatMap byteBits

/-- The `N` extra bits as a bit string: `ExtraBits(N, UB)[7], ..., ExtraBits(N, UB)[8-N]` (R169). -/
def extraBitString (align : SubbyteAlign) (n : BitVec 3) (ub : Byte) : List Bool :=
  (byteBits (extraBits align n ub)).take n.toNat

/-- The number of zero bits of the padding: the least number that brings the length to 448 modulo 512. -/
def zeroBits (len : Nat) : Nat := (959 - len % 512) % 512

/-- The 64-bit big-endian bit length, modulo 2^64 (R116; exact for the standard's messages). -/
def lengthBits (len : Nat) : List Bool := (List.range 64).map fun i => (BitVec.ofNat 64 len).getMsbD i

/-- The standard padding (R169): "`1` bit, zero-padding, 64-bit big-endian bit-length suffix". -/
def padBits (m : List Bool) : List Bool :=
  m ++ true :: (List.replicate (zeroBits m.length) false ++ lengthBits m.length)

/-- Byte `k` of a bit string, its first bit the most significant; bits past the end count as 0. -/
def byteAt (bits : List Bool) (k : Nat) : Byte :=
  BitVec.ofFnLE fun j : Fin 8 => bits.getD (8 * k + (7 - j.val)) false

/-- A bit string of whole bytes as a byte string. -/
def bitsToBytes (bits : List Bool) : List Byte := (List.range (bits.length / 8)).map (byteAt bits)

/-- Block `j` of a byte string: its bytes `64 j .. 64 j + 63`. -/
def blockAt (m : List Byte) (j : Nat) : Vector Byte 64 := Vector.ofFn fun i : Fin 64 => m.getD (64 * j + i.val) 0

/-- The whole 64-byte blocks of a byte string, in order. -/
def blocks (m : List Byte) : List (Vector Byte 64) := (List.range (m.length / 64)).map (blockAt m)

/-- The accumulator after the whole blocks of `m`, from a variant's initial vector. -/
def chain (v : Variant) (m : List Byte) : Vector Word 8 := (blocks m).foldl compress (initialVector v)

/-- The standard's digest of a bit string (R2, R169). -/
def digest (v : Variant) (bits : List Bool) : List Byte := digestBytes v (chain v (bitsToBytes (padBits bits)))

/-- The padded end of a message (R162, R164, R165): the buffered bytes, the sentinel byte `x`, zero bytes up to
occupancy 56 of this block or, when fewer than 8 bytes are left free, of the next one, and the length. -/
def paddedEnd (buffered : List Byte) (x : Byte) (lbit : BitVec 64) : List Byte :=
  let zeros := if buffered.length < 56 then 55 - buffered.length else 119 - buffered.length
  buffered ++ x :: (List.replicate zeros 0#8 ++ (ser64 lbit).toList)

/-- The rolling 16-word window of the schedule and the working variables (R12, R146). -/
structure Rolling where
  window : Vector Word 16
  work : Work
  deriving DecidableEq, Repr

/-- The window one word on: the next schedule word comes in at the end, by the recurrence of R141. -/
def shiftWindow (w : Vector Word 16) : Vector Word 16 :=
  Vector.ofFn fun i : Fin 16 =>
    if _h : i.val < 15 then w[i.val + 1] else smallSigma1 w[14] + w[9] + smallSigma0 w[1] + w[0]

/-- One round on the rolling window: its first word is the round's schedule word. -/
def rollingRound (r : Rolling) (t : Fin 64) : Rolling where
  window := shiftWindow r.window
  work := shaRound r.work roundK[t] r.window[0]

/-- The compression with a rolling 16-word window (R12, R146). -/
def compressRolling (h : Vector Word 8) (b : Vector Byte 64) : Vector Word 8 :=
  let window := Vector.ofFn fun t : Fin 16 => be32 b[4 * t.val] b[4 * t.val + 1] b[4 * t.val + 2] b[4 * t.val + 3]
  feedForward h ((List.finRange 64).foldl rollingRound ⟨window, Work.ofAccumulator h⟩).work

/-- The document's two-tier absorption (R114): fill the buffer, compress whole blocks directly from the
input, buffer the rest. Answers the accumulator and the bytes left buffered. -/
def twoTier (h : Vector Word 8) (buffered : List Byte) (input : List Byte) : Vector Word 8 × List Byte :=
  if buffered.length + input.length < 64 then (h, buffered ++ input)
  else
    let fill := input.take (64 - buffered.length)
    let rest := input.drop (64 - buffered.length)
    let h' := compress h (blockAt (buffered ++ fill) 0)
    ((blocks rest).foldl compress h', rest.drop (64 * (rest.length / 64)))

end Sys2Proof.Machine.Reference
end

