-- ==== Sys2Proof/Safety.lean ====
section
/-! DEFINITION. The terms the statements use: the invariant between transactions (10_state.md R31, R34, R39,
R47), what a context represents, and what a run lets its host observe (70_reset_and_hazards.md R223). -/

namespace Sys2Proof.Safety

open Sys2Proof.Machine

/-- The context fields hold values as R47 says for `ACTIVE`: `BLEN = (TBITS / 8) mod 64`, whole bytes only,
and exactly the bytes `BUF[0..BLEN-1]` are valid (R33). -/
structure Held (s : State) : Prop where
  accumulator : ∃ h, s.h = some h
  counts : ∃ n t, s.blen = some n ∧ s.tbits = some t ∧ n.val = t.toNat / 8 % 64 ∧ t.toNat % 8 = 0
  valid : ∀ n, s.blen = some n → ∀ i : Fin 64, (s.buf[i]).isSome ↔ i < n

/-- The context fields are `⊥` (R47 for `UNINIT` and `DONE`; R49, R167). -/
structure Empty (s : State) : Prop where
  h : s.h = none
  buf : s.buf = emptyBuf
  blen : s.blen = none
  tbits : s.tbits = none

/-- The invariant between steps (R31, R34, R39, R47, R181, R212, R216). -/
structure Inv (s : State) : Prop where
  active : s.cst = .active → Held s
  uninit : s.cst = .uninit → Empty s ∧ s.var = .sha256
  done : s.cst = .done → Empty s
  faulted : s.cst = .fault → Held s ∨ Empty s
  code : s.fcode = .none ↔ s.cst ≠ .fault
  notInitialized : s.fcode = .notInitialized → Empty s ∧ s.var = .sha256
  finalized : s.fcode = .finalizedContext → Empty s
  inTransit : s.dout ≠ [] → s.cst = .done ∧ s.taken.length + s.dout.length = 4 * digestWords s.var
  noneInTransit : s.dout = [] → s.taken = []
  wholeDigests : ∀ d ∈ s.digests, d.length = 28 ∨ d.length = 32
  discards : s.discarding = true → s.cst = .fault

/-- The context is `ACTIVE` and holds what absorbing the message `m` from INIT of variant `v` leaves
(R111 to R114): the accumulator after `m`'s whole blocks, the bytes after them in the buffer, their number
and the bit count modulo 2^64. -/
structure Represents (s : State) (v : Variant) (m : List Byte) : Prop where
  cst : s.cst = .active
  var : s.var = v
  h : s.h = some (Reference.chain v m)
  blen : s.blen = some ⟨m.length % 64, Nat.mod_lt _ (by decide)⟩
  tbits : s.tbits = some (BitVec.ofNat 64 (8 * m.length))
  buf : ∀ i : Fin 64,
    s.buf[i] = if i.val < m.length % 64 then some (m.getD (64 * (m.length / 64) + i.val) 0) else none

/-- Run a list of commands, one transaction after another (R74). -/
def runCommands : List Instr → State → Result
  | [], s => .next s
  | i :: is, s =>
    match exec i s with
    | .next s' => runCommands is s'
    | .fault f => .fault f
    | .refused r => .refused r

/-- The engine has nothing left to do and the host no action: the run has ended, with every digest byte
taken (R223). -/
def Ended (s : State) : Prop := s.dout = [] ∧ s.cmd = [] ∧ s.host = []

/-- What a run that ended in `s` lets its host observe (R223): the sequence of the digests emitted, each taken to
its last byte, and the final STATUS; nothing when the final `CST` is `FAULT`. A FINAL that reset aborted has
emitted no digest (R212). -/
def observation (s : State) : Option (List (List Byte) × Word) :=
  match s.cst with
  | .fault => none
  | .uninit => some (s.digests, s.status)
  | .active => some (s.digests, s.status)
  | .done => some (s.digests, s.status)

/-- The valid bytes of the buffer in arrival order (R33). -/
def buffered (s : State) : List Byte := s.buf.toList.filterMap id

/-- Two states whose engines are the same: every field of R30 and the parameter. Their ports' and hosts' sides
may differ. -/
def SameEngine (s t : State) : Prop :=
  s.h = t.h ∧ s.buf = t.buf ∧ s.blen = t.blen ∧ s.tbits = t.tbits ∧ s.var = t.var ∧ s.cst = t.cst ∧
    s.fcode = t.fcode ∧ s.subbyteAlign = t.subbyteAlign

/-- The ports' and the host's side of `t` is that of `s`, `dout` apart. -/
def SameHostSide (s t : State) : Prop :=
  s.cmd = t.cmd ∧ s.discarding = t.discarding ∧ s.host = t.host ∧ s.taken = t.taken ∧ s.digests = t.digests ∧
    s.statusLog = t.statusLog

end Sys2Proof.Safety
end

