-- ==== Sys2Proof/Certificates/Slice0/Obligations.lean ====
section
/-! DEFINITION. The statements about the engine, from the numbered rules of the spec. -/

open Sys2Proof Sys2Proof.Machine Sys2Proof.Safety

/-! ### Encoding (30_encoding.md) -/

/-- R89, and the vectors of 95_test_vectors.md §2: words written out from the formats of R83 to R85. -/
def Obligations.DecodesTheSpecsWords : Prop :=
  decodeWord 0x00000001#32 = some (.init .sha256) ∧
  decodeWord 0x00000011#32 = some (.init .sha224) ∧
  decodeWord 0x00000002#32 = some (.update 0) ∧
  decodeWord 0x00000302#32 = some (.update 3) ∧
  decodeWord 0xffffff02#32 = some (.update 16777215) ∧
  decodeWord 0x00000003#32 = some (.final 0 0) ∧
  decodeWord 0x00050303#32 = some (.final 3 0x05) ∧
  decodeWord 0x00ff0703#32 = some (.final 7 0xff) ∧
  decodeWord 0x00000000#32 = none ∧ decodeWord 0x00000021#32 = none ∧ decodeWord 0x00000312#32 = none ∧
  decodeWord 0x00000803#32 = none ∧ decodeWord 0x01000003#32 = none ∧ decodeWord 0x0000000f#32 = none

/-- R90's first sentence: the illegal words are exactly those with a reserved `OP` and those of INIT, UPDATE or FINAL
with a reserved bit set; the reserved fields are those of R83 to R85. -/
def Obligations.IllegalWordsAreExactlyTheReservedOnes : Prop :=
  ∀ w : Word, decodeWord w = none ↔
    (opField w = 0x0 ∨ 0x4 ≤ opField w) ∨
    (opField w = 0x1 ∧ w.extractLsb' 5 27 ≠ 0) ∨
    (opField w = 0x2 ∧ w.extractLsb' 4 4 ≠ 0) ∨
    (opField w = 0x3 ∧ ¬(w.extractLsb' 24 8 = 0 ∧ w.extractLsb' 11 5 = 0 ∧ w.extractLsb' 4 4 = 0))

/-- R89: "The three patterns are disjoint (they differ in `OP`)": a word decodes to INIT, UPDATE or FINAL exactly if it
matches that command's pattern, in whatever order the patterns are tried, and then it has that command's `OP`. -/
def Obligations.CommandPatternsDifferInOp : Prop :=
  ∀ w : Word,
    ((∃ v, decodeWord w = some (.init v)) ↔ w &&& 0xFFFFFFEF#32 = 0x00000001#32) ∧
    ((∃ len, decodeWord w = some (.update len)) ↔ w &&& 0x000000FF#32 = 0x00000002#32) ∧
    ((∃ n ub, decodeWord w = some (.final n ub)) ↔ w &&& 0xFF00F8FF#32 = 0x00000003#32) ∧
    (∀ v, decodeWord w = some (.init v) → opField w = 0x1) ∧
    (∀ len, decodeWord w = some (.update len) → opField w = 0x2) ∧
    (∀ n ub, decodeWord w = some (.final n ub) → opField w = 0x3)

/-- Decoding what the encoder writes for a well-formed command gives that command back, with every operand at
every value, and leaves what follows on the port (R80, R83 to R89, R92). -/
def Obligations.DecodeOfEncodeGivesTheCommandBack : Prop :=
  ∀ (i : Instr) (rest : List PortItem), i.wellFormed = true → decode (encode i ++ rest) = .instr i rest

/-- Each transaction has one meaning: what decodes to a command is that command's encoding, its payload has
`LEN` bytes, and nothing behind it is taken (R61, R80, R83 to R89, R92). -/
def Obligations.DecodedItemsAreTheEncoding : Prop :=
  ∀ (items : List PortItem) (i : Instr) (rest : List PortItem),
    decode items = .instr i rest → items = encode i ++ rest ∧ i.wellFormed = true

/-! ### The step and the ports (20_memory.md, 70_reset_and_hazards.md) -/

/-- A step runs the decoded command: with no digest in transit and a well-formed command at the front of the command
port, the step is the command's meaning at the state with the transaction taken off the port (R61, R74). That the engine
runs it before the host's coming actions, off a port held as a list, and that the port remembers whether bytes attached
to the transaction are discarded with it (R92), are the model's choices (log entries 4, 3 and 5). -/
def Obligations.StepRunsTheDecodedCommand : Prop :=
  ∀ (s : State) (i : Instr) (rest : List PortItem),
    i.wellFormed = true → s.dout = [] → s.cmd = encode i ++ rest →
      step s = exec i { s with cmd := rest, discarding := discardsPayload i s.cst }

/-- An ill-formed word (R182): in `UNINIT`, `ACTIVE` and `DONE` alike it raises `ILLEGAL_COMMAND` (code 1) with fault
entry's effect and no other, whatever the word; in `FAULT` it is discarded (R189). (The port then discards bytes attached
to the word, R92: log entry 5.) -/
def Obligations.IllegalWordRaisesIllegalCommand : Prop :=
  FaultCode.illegalCommand.code = 1 ∧
  ∀ (s : State) (w : Word) (rest : List PortItem),
    decodeWord w = none → s.dout = [] → s.cmd = .word w :: rest →
      (s.cst ≠ .fault →
        step s = .next { s with cmd := rest, discarding := true, fcode := .illegalCommand, cst := .fault }) ∧
      (s.cst = .fault → step s = .next { s with cmd := rest, discarding := true })

/-- R215: while an UPDATE's payload has not all arrived the engine waits and only the host acts; a payload cut short by the
next word is refused. That the step of an engine stuck without a host action answers the same state is the model's choice
(log entry 10; 93 S8 says stuck). -/
def Obligations.UpdateWaitsForItsPayload : Prop :=
  ∀ (s : State) (w : Word) (len : BitVec 24) (p : List Byte),
    decodeWord w = some (.update len) → s.dout = [] → p.length < len.toNat →
      (s.cmd = .word w :: p.map .byte → step s = .next (hostTurn s)) ∧
      (s.cmd = .word w :: p.map .byte → s.host = [] → step s = .next s) ∧
      (∀ w' rest, s.cmd = .word w :: (p.map .byte ++ .word w' :: rest) → step s = .refused .payloadLength)

/-- A payload byte where a command word is due is not the host's to send: the model refuses it (R215), but behind a
discarded transaction that is no UPDATE it discards it as payload attached to that one (R92, R185, R189; the model's
reading, log entry 5). -/
def Obligations.StrayPayloadByteIsRefusedOrDiscarded : Prop :=
  ∀ (s : State) (b : Byte) (rest : List PortItem),
    s.dout = [] → s.cmd = .byte b :: rest →
      (s.discarding = false → step s = .refused .strayPayload) ∧
      (s.discarding = true → step s = .next { s with cmd := rest })

/-- R216: while a digest is in transit the engine takes no transaction, whatever stands on the command port; only the
host acts. That the step of an engine stuck inside FINAL, without a host action, answers the same state is the model's
choice (log entry 10; R200: "waiting changes no state"). -/
def Obligations.DigestInTransitBlocksTheEngine : Prop :=
  ∀ s : State, s.dout ≠ [] → step s = .next (hostTurn s) ∧ (s.host = [] → step s = .next s)

/-- R63, R216: a host that takes a digest takes all its bytes in order, first byte first, behind those it has taken of it;
with the last one the digest has been taken, and nothing else changes. Before the last byte it is no digest (R212). (The
records of what the host has taken are the model's own: log entry 12.) -/
def Obligations.HostTakesTheDigestInOrder : Prop :=
  ∀ (s : State) (rest : List HostAction), s.dout ≠ [] →
    (s.host = List.replicate s.dout.length .takeDigestByte ++ rest →
      Sys2Proof.core.run s.dout.length s =
        .next { s with dout := [], host := rest, taken := [], digests := s.digests ++ [s.taken ++ s.dout] }) ∧
    (∀ k < s.dout.length, s.host = List.replicate k .takeDigestByte ++ rest →
      Sys2Proof.core.run k s =
        .next { s with dout := s.dout.drop k, host := rest, taken := s.taken ++ s.dout.take k })

/-- R61, R62: a well-formed command that the host sends on a free command port, word first and payload in order, is
run. That the step right after its last item runs it, before the host's remaining actions, off a port held as a list, is
the model's choice (log entries 4 and 3), as is the port's memory of whether bytes attached to the command are discarded
with it (R92; log entry 5). -/
def Obligations.SentCommandIsRun : Prop :=
  ∀ (s : State) (i : Instr) (rest : List HostAction),
    i.wellFormed = true → s.dout = [] → s.cmd = [] → s.host = Assembler.sendCommand i ++ rest →
      Sys2Proof.core.run ((Assembler.sendCommand i).length + 1) s =
        exec i { s with host := rest, discarding := discardsPayload i s.cst }

/-- R63: only FINAL in `ACTIVE` puts bytes on `dout`, 28 for SHA224 and 32 for SHA256; a step changes `dout` otherwise
only by the host's taking its first byte (R216), or by reset (R210). The records of what the host has taken, `taken` and
`digests`, which the second clause speaks of, are the model's own (log entry 12). -/
def Obligations.OnlyFinalEmitsDigestBytes : Prop :=
  ∀ s t : State, step s = .next t → t.dout ≠ s.dout →
    (∃ n ub rest d, decode s.cmd = .instr (.final n ub) rest ∧ s.cst = .active ∧ s.dout = [] ∧
      t.dout = d ∧ (s.var = .sha224 → d.length = 28) ∧ (s.var = .sha256 → d.length = 32)) ∨
    (∃ b rest, s.host = .takeDigestByte :: rest ∧ s.dout = b :: t.dout ∧
      (t.dout ≠ [] → t.taken = s.taken ++ [b] ∧ t.digests = s.digests) ∧
      (t.dout = [] → t.taken = [] ∧ t.digests = s.digests ++ [s.taken ++ [b]])) ∨
    (∃ rest, s.host = .assertReset :: rest ∧ t.dout = [])

/-! ### STATUS (10_state.md) -/

/-- R40: `STATUS = (FCODE << 4) | (VAR << 2) | CST`, field by field, its reserved bits reading 0 and `FCODE` 4..7 never
produced. -/
def Obligations.StatusHoldsItsFields : Prop :=
  ∀ s : State,
    s.status.toNat = 16 * s.fcode.code.toNat + 4 * s.var.bit.toNat + s.cst.code.toNat ∧
    s.status.extractLsb' 0 2 = s.cst.code ∧ s.status.extractLsb' 2 1 = s.var.bit ∧
    s.status.extractLsb' 3 1 = 0 ∧ s.status.extractLsb' 4 3 = s.fcode.code ∧ s.status.extractLsb' 7 25 = 0 ∧
    s.fcode.code.toNat ≤ 3

/-- R41: a STATUS read changes nothing of the engine or its ports; it returns the port's value, and a second read
right after it returns the same. -/
def Obligations.StatusReadHasNoSideEffect : Prop :=
  ∀ s : State,
    hostAct .readStatus s = { s with statusLog := s.statusLog ++ [s.statusPort] } ∧
    (hostAct .readStatus s).statusPort = s.statusPort ∧
    (s.dout = [] → s.statusPort = s.status)

/-- R217: a read while a FINAL's digest is in transit, the first bytes taken or not, returns STATUS before that FINAL;
after the last byte it returns the state after it. -/
def Obligations.StatusReadDuringFinalIsTheOneBefore : Prop :=
  ∀ (s t : State) (n : BitVec 3) (ub : Byte),
    s.cst = .active → s.fcode = .none → s.dout = [] → exec (.final n ub) s = .next t →
      t.dout ≠ [] ∧
      (∀ k < t.dout.length, ({ t with dout := t.dout.drop k } : State).statusPort = s.status) ∧
      ({ t with dout := [] } : State).statusPort = statusWord .done s.var .none

/-! ### INIT and UPDATE (40_init_update.md) -/

/-- R111: INIT outside `FAULT` answers the state of its pseudocode and changes nothing else (`FCODE`, the parameter, the
ports and the host's side stay); in `FAULT` it is discarded; its words and no payload; two INITs in a row leave the state
of the second. -/
def Obligations.InitSetsUpTheContext : Prop :=
  (∀ (v : Variant) (s : State), s.cst ≠ .fault →
    exec (.init v) s = .next
      { s with
        var := v
        h := some (match v with
          | .sha256 => iv256
          | .sha224 => iv224)
        blen := some 0
        tbits := some 0
        buf := Vector.replicate 64 none
        cst := .active }) ∧
  (∀ (v : Variant) (s : State), s.cst = .fault → exec (.init v) s = .next s) ∧
  encode (.init .sha256) = [.word 0x00000001#32] ∧ encode (.init .sha224) = [.word 0x00000011#32] ∧
  (∀ (v v' : Variant) (s t : State), exec (.init v) s = .next t → exec (.init v') t = exec (.init v') s)

/-- R111: INIT abandons the current context: the engine after it does not depend on the one before, its fault code and
parameter apart. -/
def Obligations.InitForgetsTheContext : Prop :=
  ∀ (v : Variant) (s s' t t' : State), s.fcode = s'.fcode → s.subbyteAlign = s'.subbyteAlign →
    s.cst ≠ .fault → s'.cst ≠ .fault → exec (.init v) s = .next t → exec (.init v) s' = .next t' →
      SameEngine t t'

/-- R113: absorbing one byte into a buffer that does not become full. -/
def Obligations.AbsorbedByteGoesToTheBuffer : Prop :=
  ∀ (s : State) (b : Byte) (n : Fin 64) (hn : n.val + 1 < 64), s.blen = some n →
    absorbByte b s = .ok { s with buf := s.buf.set n.val (some b), blen := some ⟨n.val + 1, hn⟩ }

/-- R113: the byte that fills the buffer compresses the 64 bytes in arrival order and leaves `BLEN = 0`; the rest of the
engine is untouched. (That no byte of `BUF` then holds a value is R33; log entry 2.) -/
def Obligations.FullBufferIsCompressed : Prop :=
  ∀ (s : State) (b : Byte) (h : Vector Word 8) (block : Vector Byte 64), s.h = some h → s.blen = some 63 →
    (∀ i : Fin 64, i.val < 63 → s.buf[i] = some block[i]) → block[63] = b →
      absorbByte b s =
        .ok { s with h := some (compress h block), blen := some 0, buf := Vector.replicate 64 none }

/-- UPDATE in `ACTIVE` (R112) completes for every payload of `LEN` bytes: the accumulator takes in every block that the
buffered bytes and the payload fill, in order, the rest is buffered, `TBITS` counts `8 * LEN` bits modulo 2^64 (R116),
and nothing else changes. -/
def Obligations.UpdateAbsorbsItsPayload : Prop :=
  ∀ (s : State) (len : BitVec 24) (p : List Byte) (h : Vector Word 8) (n : Fin 64) (tb : BitVec 64),
    s.cst = .active → Held s → s.h = some h → s.blen = some n → s.tbits = some tb → p.length = len.toNat →
      ∃ t, exec (.update len p) s = .next t ∧
        t.h = some ((Reference.blocks (buffered s ++ p)).foldl compress h) ∧
        buffered t = (buffered s ++ p).drop (64 * ((n.val + p.length) / 64)) ∧
        (∃ k : Fin 64, t.blen = some k ∧ k.val = (n.val + p.length) % 64) ∧
        (∃ tb', t.tbits = some tb' ∧ tb'.toNat = (tb.toNat + 8 * p.length) % 2 ^ 64) ∧
        t = { s with h := t.h, buf := t.buf, blen := t.blen, tbits := t.tbits }

/-- An UPDATE whose payload does not have `LEN` bytes is refused, in every context state (R215, 93 S9). -/
def Obligations.UpdateOfAnotherLengthIsRefused : Prop :=
  ∀ (s : State) (len : BitVec 24) (p : List Byte),
    p.length ≠ len.toNat → exec (.update len p) s = .refused .payloadLength

/-- R114: the document's two-tier strategy leaves the same `H`, `BLEN` and buffered bytes as the byte-at-a-time loop, and
neither touches `TBITS`, which UPDATE counts after it. -/
def Obligations.TwoTierAbsorptionAgrees : Prop :=
  ∀ (s t : State) (p : List Byte) (h : Vector Word 8), Held s → s.h = some h → absorbBytes p s = .ok t →
    t.h = some (Reference.twoTier h (buffered s) p).1 ∧ buffered t = (Reference.twoTier h (buffered s) p).2 ∧
      (∃ k : Fin 64, t.blen = some k ∧ k.val = (Reference.twoTier h (buffered s) p).2.length) ∧ t.tbits = s.tbits

/-- R115, chunking invariance: two splits of the same bytes into UPDATEs, empty pieces included, lead from an
`ACTIVE` state to the same state. -/
def Obligations.ChunkingDoesNotMatter : Prop :=
  ∀ (s : State) (c c' : List (List Byte)), s.cst = .active → Held s →
    (∀ m ∈ c, m.length ≤ Config.maxChunk) → (∀ m ∈ c', m.length ≤ Config.maxChunk) → c.flatten = c'.flatten →
      ∃ t, runCommands (c.map Assembler.updateOf) s = .next t ∧
        runCommands (c'.map Assembler.updateOf) s = .next t

/-! ### Compression (41_compression.md, 00_scope.md R18) -/

/-- R130: `rotr` moves bit `i + n` (modulo 32) to bit `i`. -/
def Obligations.RotrMovesEveryBit : Prop :=
  ∀ (x : Word) (n i : Nat), 0 < n → n < 32 → i < 32 → (rotr x n).getLsbD i = x.getLsbD ((i + n) % 32)

/-- R135 and R136, bit by bit: `Ch` chooses, `Maj` is the majority. -/
def Obligations.ChooseAndMajorityBits : Prop :=
  ∀ (x y z : Word) (i : Nat), i < 32 →
    (ch x y z).getLsbD i = (if x.getLsbD i then y.getLsbD i else z.getLsbD i) ∧
    (maj x y z).getLsbD i =
      decide (2 ≤ (x.getLsbD i).toNat + (y.getLsbD i).toNat + (z.getLsbD i).toNat)

/-- R18: `be32` and `ser32` are inverse to each other, and the first byte is the most significant. -/
def Obligations.WordBytesAreBigEndianAndInverse : Prop :=
  ∀ (w : Word) (b0 b1 b2 b3 : Byte),
    (ser32 (be32 b0 b1 b2 b3) = [b0, b1, b2, b3]) ∧
    (be32 (w.extractLsb' 24 8) (w.extractLsb' 16 8) (w.extractLsb' 8 8) (w.extractLsb' 0 8) = w) ∧
    (be32 b0 b1 b2 b3).toNat = b0.toNat * 2 ^ 24 + b1.toNat * 2 ^ 16 + b2.toNat * 2 ^ 8 + b3.toNat

/-- R140 and R141: every word of the schedule. -/
def Obligations.ScheduleFollowsItsRecurrence : Prop :=
  ∀ b : Vector Byte 64,
    (∀ (t : Nat) (_ : t < 16),
      (schedule b)[t] = be32 b[4 * t] b[4 * t + 1] b[4 * t + 2] b[4 * t + 3]) ∧
    (∀ (t : Nat) (_ : 16 ≤ t) (_ : t < 64),
      (schedule b)[t] = smallSigma1 (schedule b)[t - 2] + (schedule b)[t - 7] +
        smallSigma0 (schedule b)[t - 15] + (schedule b)[t - 16])

/-- R146 (and R12): the rolling 16-word window gives the same compression. -/
def Obligations.RollingWindowCompressesAlike : Prop :=
  ∀ (h : Vector Word 8) (b : Vector Byte 64), Reference.compressRolling h b = compress h b

/-! ### FINAL (42_finalize.md) -/

/-- R161 and R162, bit by bit from the top of the byte: the `N` extra bits (under `low` `UB[N-1]` first, under `high`
`UB[7]` first) and zeros below them; in the sentinel byte a 1 follows them, then zeros. -/
def Obligations.SentinelBits : Prop :=
  ∀ (n : BitVec 3) (ub : Byte) (j : Nat), j < 8 →
    (extraBits .low n ub).getMsbD j = (if j < n.toNat then ub.getLsbD (n.toNat - 1 - j) else false) ∧
    (extraBits .high n ub).getMsbD j = (if j < n.toNat then ub.getMsbD j else false) ∧
    (∀ align, (sentinel align n ub).getMsbD j =
      if j < n.toNat then (extraBits align n ub).getMsbD j else decide (j = n.toNat))

/-- FINAL in `ACTIVE` (R160, R162 to R167) completes for every `N` and `UB`: it emits the digest of the accumulator
after the padded end of the message, leaves the context fields `⊥` and `CST = DONE`, and changes nothing else. -/
def Obligations.FinalPadsCompressesAndEmits : Prop :=
  ∀ (s : State) (n : BitVec 3) (ub : Byte) (h : Vector Word 8) (tb : BitVec 64),
    s.cst = .active → Held s → s.h = some h → s.tbits = some tb →
      exec (.final n ub) s = .next
        { s with
          h := none
          buf := Vector.replicate 64 none
          blen := none
          tbits := none
          cst := .done
          dout := s.dout ++ digestBytes s.var
            ((Reference.blocks
              (Reference.paddedEnd (buffered s) (sentinel s.subbyteAlign n ub) (lengthValue tb n))).foldl compress h) }

/-- R166: the digest is 32 bytes for SHA256, with every accumulator word, and 28 for SHA224, without `H[7]`: byte
`4 i + j` is byte `j` of `ser32(H[i])`. -/
def Obligations.DigestSerializesTheAccumulator : Prop :=
  ∀ (v : Variant) (h : Vector Word 8),
    (digestBytes v h).length = (match v with
      | .sha256 => 32
      | .sha224 => 28) ∧
    (∀ (i j : Nat) (_ : i < digestWords v) (hi : i < 8) (_ : j < 4),
      (digestBytes v h)[4 * i + j]? = some (h[i].extractLsb' (24 - 8 * j) 8))

/-- R88, R161: the bits of `UB` that `N` does not select have no effect, and with `N = 0` none has (R168). -/
def Obligations.UnselectedBitsOfUbAreIgnored : Prop :=
  ∀ (s : State) (n : BitVec 3) (ub ub' : Byte),
    (s.subbyteAlign = .low → ∀ j < n.toNat, ub.getLsbD j = ub'.getLsbD j) →
    (s.subbyteAlign = .high → ∀ j < n.toNat, ub.getMsbD j = ub'.getMsbD j) →
      exec (.final n ub) s = exec (.final n ub') s

/-- 95_test_vectors.md §3.6: with `SUBBYTE_ALIGN = high` the same bit string is given by `UB << (8 - N)`. -/
def Obligations.HighAlignmentGivesTheSameBits : Prop :=
  ∀ (n : BitVec 3) (ub : Byte), sentinel .high n (ub <<< (8 - n.toNat)) = sentinel .low n ub

/-- R170: INIT and UPDATEs of `L` bytes in total, from every state outside `FAULT`, leave the initial vector with
`floor(L / 64)` blocks compressed into it, one compression a block, and `L mod 64` bytes buffered; FINAL, whatever `N`
and `UB` are, emits the digest after one compression if at most 55 bytes are buffered, and after two if more are (R164).
The blocks are named: the message's whole blocks, and those of FINAL's padded end. -/
def Obligations.NumberOfCompressions : Prop :=
  (∀ (v : Variant) (s : State) (chunks : List (List Byte)), s.cst ≠ .fault →
    (∀ m ∈ chunks, m.length ≤ Config.maxChunk) →
      ∃ (t : State) (k : Fin 64), runCommands (.init v :: chunks.map Assembler.updateOf) s = .next t ∧
        t.h = some ((Reference.blocks chunks.flatten).foldl compress (initialVector v)) ∧
        (Reference.blocks chunks.flatten).length = chunks.flatten.length / 64 ∧
        t.blen = some k ∧ k.val = chunks.flatten.length % 64) ∧
  (∀ (s : State) (n : BitVec 3) (ub : Byte) (h : Vector Word 8) (k : Fin 64) (tb : BitVec 64),
    s.cst = .active → Held s → s.h = some h → s.blen = some k → s.tbits = some tb →
      ∃ t : State, exec (.final n ub) s = .next t ∧
        (k.val ≤ 55 → t.dout = s.dout ++ digestBytes s.var
          (compress h (Reference.blockAt
            (Reference.paddedEnd (buffered s) (sentinel s.subbyteAlign n ub) (lengthValue tb n)) 0))) ∧
        (56 ≤ k.val → t.dout = s.dout ++ digestBytes s.var
          (compress
            (compress h (Reference.blockAt
              (Reference.paddedEnd (buffered s) (sentinel s.subbyteAlign n ub) (lengthValue tb n)) 0))
            (Reference.blockAt
              (Reference.paddedEnd (buffered s) (sentinel s.subbyteAlign n ub) (lengthValue tb n)) 1))))

/-! ### The engine and the standard's digest (00_scope.md R2, 42_finalize.md R169) -/

/-- After INIT the context represents the empty message (R111). -/
def Obligations.InitRepresentsTheEmptyMessage : Prop :=
  ∀ (v : Variant) (s : State), s.cst ≠ .fault → ∃ t, exec (.init v) s = .next t ∧ Represents t v []

/-- UPDATE appends its payload to the message the context represents (R112, R113). -/
def Obligations.UpdateAppendsToTheMessage : Prop :=
  ∀ (s : State) (v : Variant) (m : List Byte) (len : BitVec 24) (p : List Byte),
    Represents s v m → p.length = len.toNat →
      ∃ t, exec (.update len p) s = .next t ∧ Represents t v (m ++ p) ∧ t.dout = s.dout ∧ t.fcode = s.fcode ∧
        t.subbyteAlign = s.subbyteAlign ∧ SameHostSide s t

/-- R169, and R168 for `N = 0`: the digest FINAL emits is the standard's digest of the message's bits followed by the
extra bits. The standard's messages have fewer than 2^64 bits; from there on it defines no digest, and the one with the
bit length wrapped modulo 2^64 is meant (R116, 93 U4; log entry 14). -/
def Obligations.FinalEmitsTheStandardDigest : Prop :=
  ∀ (s : State) (v : Variant) (m : List Byte) (n : BitVec 3) (ub : Byte), Represents s v m →
    ∃ t, exec (.final n ub) s = .next t ∧ t.cst = .done ∧
      t.dout = s.dout ++
        Reference.digest v (Reference.messageBits m ++ Reference.extraBitString s.subbyteAlign n ub)

/-- R2, R169, R214: INIT, UPDATEs of any chunks, FINAL emit the standard's digest of the chunks' bytes and the extra
bits, from every state outside `FAULT`. From 2^64 bits on the standard defines no digest, and the one with the bit length
wrapped modulo 2^64 is meant (R116, 93 U4; log entry 14). -/
def Obligations.HashOfChunksIsTheStandardDigest : Prop :=
  ∀ (s : State) (v : Variant) (chunks : List (List Byte)) (n : BitVec 3) (ub : Byte), s.cst ≠ .fault →
    (∀ m ∈ chunks, m.length ≤ Config.maxChunk) →
      ∃ t, runCommands (.init v :: (chunks.map Assembler.updateOf ++ [.final n ub])) s = .next t ∧
        t.cst = .done ∧ t.var = v ∧ t.fcode = s.fcode ∧
        t.dout = s.dout ++ Reference.digest v
          (Reference.messageBits chunks.flatten ++ Reference.extraBitString s.subbyteAlign n ub)

/-- R223: a host that, from reset, sends one hash and takes its digest sees the run end with one digest, the standard's,
and `STATUS` = `DONE` with the variant, whatever the parameter. From 2^64 bits on the digest with the wrapped bit length is
meant (R116, 93 U4; log entry 14). The statement rests on the model's choices of an empty command port at reset (log
entry 3), of the engine's running a whole transaction before the host acts again (4), of host actions placed from outside
(9) and of empty records of what the host has taken (12). -/
def Obligations.HostObservesTheDigestOfAHash : Prop :=
  ∀ (v : Variant) (align : SubbyteAlign) (chunks : List (List Byte)) (n : BitVec 3) (ub : Byte),
    (∀ m ∈ chunks, m.length ≤ Config.maxChunk) →
      ∃ k t, Sys2Proof.core.run k
          { State.reset with
            subbyteAlign := align
            host := (Instr.init v :: (chunks.map Assembler.updateOf ++ [.final n ub])).flatMap Assembler.sendCommand ++
              List.replicate (4 * digestWords v) .takeDigestByte } = .next t ∧
        Ended t ∧
        observation t = some
          ([Reference.digest v (Reference.messageBits chunks.flatten ++ Reference.extraBitString align n ub)],
            statusWord .done v .none)

/-! ### Engine faults (60_exceptions.md) -/

/-- R183, R184: a well-formed UPDATE or FINAL in `UNINIT` (code 2) and in `DONE` (code 3), whatever its operands, takes
the fault: it writes `FCODE` and `CST` and nothing else (R185). (An UPDATE with another payload length is refused, R215.) -/
def Obligations.UpdateAndFinalFaultOutsideActive : Prop :=
  FaultCode.notInitialized.code = 2 ∧ FaultCode.finalizedContext.code = 3 ∧
  ∀ (s : State) (i : Instr), i.wellFormed = true → (∃ len p, i = .update len p) ∨ (∃ n ub, i = .final n ub) →
    (s.cst = .uninit → exec i s = .next { s with fcode := .notInitialized, cst := .fault }) ∧
    (s.cst = .done → exec i s = .next { s with fcode := .finalizedContext, cst := .fault })

/-- R189: in `FAULT` every transaction is discarded with its payload, INIT, UPDATE, FINAL and ill-formed words alike: no
state changes but the command port's. (The port discards bytes attached to any of them but an UPDATE, R92; log entry 5.) -/
def Obligations.FaultedEngineDiscardsEveryTransaction : Prop :=
  ∀ s : State, s.cst = .fault →
    (∀ i : Instr, i.wellFormed = true → exec i s = .next s) ∧
    (s.dout = [] → ∀ i rest, decode s.cmd = .instr i rest →
      ∃ d, step s = .next { s with cmd := rest, discarding := d } ∧ (d = false ↔ ∃ len p, i = .update len p)) ∧
    (s.dout = [] → ∀ w rest, decode s.cmd = .illegal w rest →
      step s = .next { s with cmd := rest, discarding := true })

/-- R188: a step that takes a fault leaves the state as it was but for `CST`, `FCODE` and the command port, off which the
transaction is taken. -/
def Obligations.FaultsArePrecise : Prop :=
  ∀ s t : State, step s = .next t → s.cst ≠ .fault → t.cst = .fault →
    t.fcode ≠ .none ∧ t = { s with cmd := t.cmd, discarding := t.discarding, cst := .fault, fcode := t.fcode } ∧
      t.cmd.length < s.cmd.length

/-- R190: from `FAULT` a step stays in `FAULT` with the first fault's code and the context as it was, unless the host
asserts reset, which leads to `UNINIT` with `FCODE = 0`. -/
def Obligations.OnlyResetLeavesFault : Prop :=
  ∀ s t : State, s.cst = .fault → step s = .next t →
    (t.cst = .fault ∧ t.fcode = s.fcode ∧ t.var = s.var ∧ t.h = s.h ∧ t.buf = s.buf ∧ t.blen = s.blen ∧
      t.tbits = s.tbits ∧ t.dout.length ≤ s.dout.length) ∨
    (∃ rest, s.host = .assertReset :: rest ∧ t.cst = .uninit ∧ t.fcode = .none)

/-- R48: what `CST` and `FCODE` are after every step from a state that meets the invariant: the rows of the transition
table, and no change in every other case. That a payload byte the port discards changes neither, and that the engine runs
a whole transaction before a reset the host is about to assert, are the model's readings (log entries 5 and 4). -/
def Obligations.ContextStateFollowsTheTable : Prop :=
  ∀ s t : State, Inv s → step s = .next t →
    (s.dout ≠ [] ∨ decode s.cmd = .waiting →
      ((∃ rest, s.host = .assertReset :: rest) → t.cst = .uninit ∧ t.fcode = .none) ∧
      ((∀ rest, s.host ≠ .assertReset :: rest) → t.cst = s.cst ∧ t.fcode = s.fcode)) ∧
    (s.dout = [] → ∀ b rest, decode s.cmd = .strayByte b rest → t.cst = s.cst ∧ t.fcode = s.fcode) ∧
    (s.dout = [] → ∀ w rest, decode s.cmd = .illegal w rest →
      match s.cst with
      | .fault => t.cst = .fault ∧ t.fcode = s.fcode
      | .uninit | .active | .done => t.cst = .fault ∧ t.fcode = .illegalCommand) ∧
    (s.dout = [] → ∀ v rest, decode s.cmd = .instr (.init v) rest →
      match s.cst with
      | .fault => t.cst = .fault ∧ t.fcode = s.fcode
      | .uninit | .active | .done => t.cst = .active ∧ t.fcode = .none) ∧
    (s.dout = [] → ∀ len p rest, decode s.cmd = .instr (.update len p) rest →
      match s.cst with
      | .uninit => t.cst = .fault ∧ t.fcode = .notInitialized
      | .active => t.cst = .active ∧ t.fcode = .none
      | .done => t.cst = .fault ∧ t.fcode = .finalizedContext
      | .fault => t.cst = .fault ∧ t.fcode = s.fcode) ∧
    (s.dout = [] → ∀ n ub rest, decode s.cmd = .instr (.final n ub) rest →
      match s.cst with
      | .uninit => t.cst = .fault ∧ t.fcode = .notInitialized
      | .active => t.cst = .done ∧ t.fcode = .none
      | .done => t.cst = .fault ∧ t.fcode = .finalizedContext
      | .fault => t.cst = .fault ∧ t.fcode = s.fcode)

/-- R37: a step changes `VAR` only by an INIT outside `FAULT`, to that INIT's variant, or by reset, to SHA256. -/
def Obligations.OnlyInitAndResetWriteTheVariant : Prop :=
  ∀ s t : State, step s = .next t →
    t.var = s.var ∨
    (∃ v rest, decode s.cmd = .instr (.init v) rest ∧ s.cst ≠ .fault ∧ t.var = v) ∨
    (∃ rest, s.host = .assertReset :: rest ∧ t.var = .sha256)

/-! ### Reset (10_state.md R49, 70_reset_and_hazards.md) -/

/-- R49: the state after reset. -/
def Obligations.ResetValues : Prop :=
  State.reset.cst = .uninit ∧ State.reset.var = .sha256 ∧ State.reset.fcode = .none ∧
    State.reset.status = 0x00000000#32 ∧ State.reset.h = none ∧ (∀ i : Fin 64, State.reset.buf[i] = none) ∧
    State.reset.blen = none ∧ State.reset.tbits = none ∧ State.reset.dout = []

/-- R210, R212: asserting reset in any state, `FAULT` included, gives the values of R49, empties `dout`, discards the bytes
taken of a digest in transit, and drops an UPDATE whose payload has partly arrived. The rest is the model's choice: what
stands on the command port behind a FINAL in transit stays (log entry 7), the parameter stays (8), the port discards no
bytes (5), and the host's coming actions (9), the digests it has taken and its STATUS reads (12) stay. -/
def Obligations.AssertingResetRestoresResetValues : Prop :=
  ∀ s : State,
    (hostAct .assertReset s).cst = .uninit ∧ (hostAct .assertReset s).var = .sha256 ∧
    (hostAct .assertReset s).fcode = .none ∧ (hostAct .assertReset s).status = 0x00000000#32 ∧
    Empty (hostAct .assertReset s) ∧ (hostAct .assertReset s).dout = [] ∧
    (s.dout = [] → (hostAct .assertReset s).cmd = []) ∧ (s.dout ≠ [] → (hostAct .assertReset s).cmd = s.cmd) ∧
    (hostAct .assertReset s).subbyteAlign = s.subbyteAlign ∧ (hostAct .assertReset s).host = s.host ∧
    (hostAct .assertReset s).discarding = false ∧ (hostAct .assertReset s).taken = [] ∧
    (hostAct .assertReset s).digests = s.digests ∧ (hostAct .assertReset s).statusLog = s.statusLog

/-! ### Invariants and whole-machine rules -/

/-- The state after reset meets the invariant. -/
def Obligations.ResetMeetsTheInvariant : Prop := Inv State.reset

/-- R47 (with R31, R34, R39): every step from a state that meets the invariant leads to one. -/
def Obligations.EveryStepKeepsTheInvariant : Prop :=
  ∀ s t : State, Inv s → step s = .next t → Inv t

/-- R31: reading `⊥` faults, whatever the field and its type, and no step from a state that meets the invariant does
it. -/
def Obligations.NoStepReadsAnUnspecifiedField : Prop :=
  (∀ (α : Type) (field : ContextField), readField (α := α) field none = .error (.unspecifiedRead field)) ∧
    ∀ (s : State) (f : Fault), Inv s → step s ≠ .fault f

/-- From a state that meets the invariant a step stops only for what the host may not send (R215): a payload cut short, or
a payload byte where a command word is due. -/
def Obligations.OnlyHostErrorsStopAStep : Prop :=
  ∀ s : State, Inv s →
    (∃ t, step s = .next t) ∨ decode s.cmd = .payloadShort ∨ (∃ b rest, decode s.cmd = .strayByte b rest)

/-- The frame of every command: when it answers a next state, the command port, the host's side and the parameter are
unchanged, and `dout` too unless it is FINAL, which only adds behind it (R63, R185). -/
def Obligations.CommandsLeaveTheHostSideAlone : Prop :=
  ∀ (i : Instr) (s t : State), exec i s = .next t →
    SameHostSide s t ∧ t.subbyteAlign = s.subbyteAlign ∧ (∃ d, t.dout = s.dout ++ d) ∧
      ((∀ n ub, i ≠ .final n ub) → t.dout = s.dout)

/-- R46, R79: what a command does to the engine and the digest it emits depend on the engine alone, not on the ports, the
host's side or what was observed before. -/
def Obligations.CommandsDependOnTheEngineAlone : Prop :=
  ∀ (i : Instr) (s s' t : State), SameEngine s s' → exec i s = .next t →
    ∃ t' d, exec i s' = .next t' ∧ SameEngine t t' ∧ t.dout = s.dout ++ d ∧ t'.dout = s'.dout ++ d

/-- R79: a step of one engine of a platform is that engine's step on its own state, and leaves every other engine as it
is, and the platform's parameters. -/
def Obligations.EnginesShareNoState : Prop :=
  ∀ (p p' : Platform) (k : Nat), p.stepEngine k = some (.next p') →
    (∃ s s', p.engines[k]? = some s ∧ step s = .next s' ∧ p'.engines[k]? = some s') ∧
    (∀ j, j ≠ k → p'.engines[j]? = p.engines[j]?) ∧
    p'.numEngines = p.numEngines ∧ p'.engineBase = p.engineBase

/-! ### Assembler syntax (30_encoding.md §6) -/

/-- R96: a message longer than one chunk becomes UPDATEs of at most 16,777,215 bytes whose payloads, in order, are the
message; all but the last are full; each is well-formed. -/
def Obligations.LongUpdateSplitsTheData : Prop :=
  ∀ data : List Byte,
    ((Assembler.updates data).flatMap Instr.payload = data) ∧
    (∀ i ∈ Assembler.updates data, i.wellFormed = true ∧ ∃ len p, i = .update len p) ∧
    (∀ i ∈ (Assembler.updates data).dropLast, i.payload.length = Config.maxChunk) ∧
    (data.length ≤ Config.maxChunk → Assembler.updates data = [Assembler.updateOf data])

/-- R98: assembling what disassembly prints for a well-formed command gives that command. -/
def Obligations.AssemblyOfDisassemblyGivesTheCommandBack : Prop :=
  ∀ i : Instr, i.wellFormed = true → Assembler.assemble (Assembler.disassemble i) = some [i]

/-! ### Payloads longer than LEN (70_reset_and_hazards.md R215) -/

/-- R215, 93 S9: an UPDATE that carries more than `LEN` payload bytes is refused, from every state that meets the
invariant, in whatever context state: the UPDATE of its first `LEN` bytes is run or refused by the engine, and the step at
the first byte too many is refused (log entry 5). -/
def Obligations.OverlongPayloadIsRefused : Prop :=
  ∀ (s : State) (len : BitVec 24) (p : List Byte) (b : Byte) (rest : List PortItem),
    Inv s → s.dout = [] → p.length = len.toNat → s.cmd = encode (.update len p) ++ .byte b :: rest →
      Sys2Proof.core.run 2 s = .refused .strayPayload

/-! ### The platform's parameters (00_scope.md R13) -/

/-- R13, R72, R198: a platform has at least one engine; right after reset it has `NUM_ENGINES` engines, each at its own
reset with the platform's `SUBBYTE_ALIGN`, and keeps `ENGINE_BASE`; every engine it has can be stepped, and no step depends
on `ENGINE_BASE`. -/
def Obligations.PlatformHasItsParameters : Prop :=
  (∀ p : Platform, 1 ≤ p.numEngines) ∧
  (∀ c : Config.Parameters, 1 ≤ c.numEngines ∧ (Platform.reset c).numEngines = c.numEngines ∧
    (Platform.reset c).engineBase = c.engineBase ∧
    ∀ k < c.numEngines, (Platform.reset c).engines[k]? = some { State.reset with subbyteAlign := c.subbyteAlign }) ∧
  (∀ (p : Platform) (k : Nat) (s s' : State) (base : Option Nat),
    p.engines[k]? = some s → step s = .next s' →
      ∃ p', p.stepEngine k = some (.next p') ∧
        Platform.stepEngine { p with engineBase := base } k = some (.next { p' with engineBase := base }))
end

