-- ==== Sys2Proof/Laws/State.lean ====
section
/-! SUPPORT. One lemma per field per update of the state, so that no proof unfolds a record update. -/

namespace Sys2Proof.Machine

/-! ### raiseFault -/

@[simp] theorem raiseFault_h (code : FaultCode) (s : State) : (raiseFault code s).h = s.h := rfl
@[simp] theorem raiseFault_buf (code : FaultCode) (s : State) : (raiseFault code s).buf = s.buf := rfl
@[simp] theorem raiseFault_blen (code : FaultCode) (s : State) : (raiseFault code s).blen = s.blen := rfl
@[simp] theorem raiseFault_tbits (code : FaultCode) (s : State) : (raiseFault code s).tbits = s.tbits := rfl
@[simp] theorem raiseFault_var (code : FaultCode) (s : State) : (raiseFault code s).var = s.var := rfl
@[simp] theorem raiseFault_cst (code : FaultCode) (s : State) : (raiseFault code s).cst = .fault := rfl
@[simp] theorem raiseFault_fcode (code : FaultCode) (s : State) : (raiseFault code s).fcode = code := rfl
@[simp] theorem raiseFault_subbyteAlign (code : FaultCode) (s : State) : (raiseFault code s).subbyteAlign = s.subbyteAlign := rfl
@[simp] theorem raiseFault_cmd (code : FaultCode) (s : State) : (raiseFault code s).cmd = s.cmd := rfl
@[simp] theorem raiseFault_discarding (code : FaultCode) (s : State) : (raiseFault code s).discarding = s.discarding := rfl
@[simp] theorem raiseFault_dout (code : FaultCode) (s : State) : (raiseFault code s).dout = s.dout := rfl
@[simp] theorem raiseFault_host (code : FaultCode) (s : State) : (raiseFault code s).host = s.host := rfl
@[simp] theorem raiseFault_taken (code : FaultCode) (s : State) : (raiseFault code s).taken = s.taken := rfl
@[simp] theorem raiseFault_digests (code : FaultCode) (s : State) : (raiseFault code s).digests = s.digests := rfl
@[simp] theorem raiseFault_statusLog (code : FaultCode) (s : State) : (raiseFault code s).statusLog = s.statusLog := rfl

/-! ### sendDigest -/

@[simp] theorem sendDigest_h (bytes : List Byte) (s : State) : (sendDigest bytes s).h = s.h := rfl
@[simp] theorem sendDigest_buf (bytes : List Byte) (s : State) : (sendDigest bytes s).buf = s.buf := rfl
@[simp] theorem sendDigest_blen (bytes : List Byte) (s : State) : (sendDigest bytes s).blen = s.blen := rfl
@[simp] theorem sendDigest_tbits (bytes : List Byte) (s : State) : (sendDigest bytes s).tbits = s.tbits := rfl
@[simp] theorem sendDigest_var (bytes : List Byte) (s : State) : (sendDigest bytes s).var = s.var := rfl
@[simp] theorem sendDigest_cst (bytes : List Byte) (s : State) : (sendDigest bytes s).cst = s.cst := rfl
@[simp] theorem sendDigest_fcode (bytes : List Byte) (s : State) : (sendDigest bytes s).fcode = s.fcode := rfl
@[simp] theorem sendDigest_subbyteAlign (bytes : List Byte) (s : State) : (sendDigest bytes s).subbyteAlign = s.subbyteAlign := rfl
@[simp] theorem sendDigest_cmd (bytes : List Byte) (s : State) : (sendDigest bytes s).cmd = s.cmd := rfl
@[simp] theorem sendDigest_discarding (bytes : List Byte) (s : State) : (sendDigest bytes s).discarding = s.discarding := rfl
@[simp] theorem sendDigest_dout (bytes : List Byte) (s : State) : (sendDigest bytes s).dout = s.dout ++ bytes := rfl
@[simp] theorem sendDigest_host (bytes : List Byte) (s : State) : (sendDigest bytes s).host = s.host := rfl
@[simp] theorem sendDigest_taken (bytes : List Byte) (s : State) : (sendDigest bytes s).taken = s.taken := rfl
@[simp] theorem sendDigest_digests (bytes : List Byte) (s : State) : (sendDigest bytes s).digests = s.digests := rfl
@[simp] theorem sendDigest_statusLog (bytes : List Byte) (s : State) : (sendDigest bytes s).statusLog = s.statusLog := rfl

/-! ### clearContext -/

@[simp] theorem clearContext_h (s : State) : (clearContext s).h = none := rfl
@[simp] theorem clearContext_buf (s : State) : (clearContext s).buf = emptyBuf := rfl
@[simp] theorem clearContext_blen (s : State) : (clearContext s).blen = none := rfl
@[simp] theorem clearContext_tbits (s : State) : (clearContext s).tbits = none := rfl
@[simp] theorem clearContext_var (s : State) : (clearContext s).var = s.var := rfl
@[simp] theorem clearContext_cst (s : State) : (clearContext s).cst = s.cst := rfl
@[simp] theorem clearContext_fcode (s : State) : (clearContext s).fcode = s.fcode := rfl
@[simp] theorem clearContext_subbyteAlign (s : State) : (clearContext s).subbyteAlign = s.subbyteAlign := rfl
@[simp] theorem clearContext_cmd (s : State) : (clearContext s).cmd = s.cmd := rfl
@[simp] theorem clearContext_discarding (s : State) : (clearContext s).discarding = s.discarding := rfl
@[simp] theorem clearContext_dout (s : State) : (clearContext s).dout = s.dout := rfl
@[simp] theorem clearContext_host (s : State) : (clearContext s).host = s.host := rfl
@[simp] theorem clearContext_taken (s : State) : (clearContext s).taken = s.taken := rfl
@[simp] theorem clearContext_digests (s : State) : (clearContext s).digests = s.digests := rfl
@[simp] theorem clearContext_statusLog (s : State) : (clearContext s).statusLog = s.statusLog := rfl

/-! ### initContext -/

@[simp] theorem initContext_h (v : Variant) (s : State) : (initContext v s).h = some (initialVector v) := rfl
@[simp] theorem initContext_buf (v : Variant) (s : State) : (initContext v s).buf = emptyBuf := rfl
@[simp] theorem initContext_blen (v : Variant) (s : State) : (initContext v s).blen = some 0 := rfl
@[simp] theorem initContext_tbits (v : Variant) (s : State) : (initContext v s).tbits = some 0 := rfl
@[simp] theorem initContext_var (v : Variant) (s : State) : (initContext v s).var = v := rfl
@[simp] theorem initContext_cst (v : Variant) (s : State) : (initContext v s).cst = .active := rfl
@[simp] theorem initContext_fcode (v : Variant) (s : State) : (initContext v s).fcode = s.fcode := rfl
@[simp] theorem initContext_subbyteAlign (v : Variant) (s : State) : (initContext v s).subbyteAlign = s.subbyteAlign := rfl
@[simp] theorem initContext_cmd (v : Variant) (s : State) : (initContext v s).cmd = s.cmd := rfl
@[simp] theorem initContext_discarding (v : Variant) (s : State) : (initContext v s).discarding = s.discarding := rfl
@[simp] theorem initContext_dout (v : Variant) (s : State) : (initContext v s).dout = s.dout := rfl
@[simp] theorem initContext_host (v : Variant) (s : State) : (initContext v s).host = s.host := rfl
@[simp] theorem initContext_taken (v : Variant) (s : State) : (initContext v s).taken = s.taken := rfl
@[simp] theorem initContext_digests (v : Variant) (s : State) : (initContext v s).digests = s.digests := rfl
@[simp] theorem initContext_statusLog (v : Variant) (s : State) : (initContext v s).statusLog = s.statusLog := rfl

/-! ### assertReset -/

@[simp] theorem assertReset_h (s : State) : (assertReset s).h = none := rfl
@[simp] theorem assertReset_buf (s : State) : (assertReset s).buf = emptyBuf := rfl
@[simp] theorem assertReset_blen (s : State) : (assertReset s).blen = none := rfl
@[simp] theorem assertReset_tbits (s : State) : (assertReset s).tbits = none := rfl
@[simp] theorem assertReset_var (s : State) : (assertReset s).var = .sha256 := rfl
@[simp] theorem assertReset_cst (s : State) : (assertReset s).cst = .uninit := rfl
@[simp] theorem assertReset_fcode (s : State) : (assertReset s).fcode = FaultCode.none := rfl
@[simp] theorem assertReset_subbyteAlign (s : State) : (assertReset s).subbyteAlign = s.subbyteAlign := rfl
@[simp] theorem assertReset_discarding (s : State) : (assertReset s).discarding = false := rfl
@[simp] theorem assertReset_dout (s : State) : (assertReset s).dout = [] := rfl
@[simp] theorem assertReset_host (s : State) : (assertReset s).host = s.host := rfl
@[simp] theorem assertReset_taken (s : State) : (assertReset s).taken = [] := rfl
@[simp] theorem assertReset_digests (s : State) : (assertReset s).digests = s.digests := rfl
@[simp] theorem assertReset_statusLog (s : State) : (assertReset s).statusLog = s.statusLog := rfl

/-! ### withFetchWord -/

@[simp] theorem withFetchWord_h (s : State) (nbits w : Nat) : (s.withFetchWord nbits w).h = s.h := rfl
@[simp] theorem withFetchWord_buf (s : State) (nbits w : Nat) : (s.withFetchWord nbits w).buf = s.buf := rfl
@[simp] theorem withFetchWord_blen (s : State) (nbits w : Nat) : (s.withFetchWord nbits w).blen = s.blen := rfl
@[simp] theorem withFetchWord_tbits (s : State) (nbits w : Nat) : (s.withFetchWord nbits w).tbits = s.tbits := rfl
@[simp] theorem withFetchWord_var (s : State) (nbits w : Nat) : (s.withFetchWord nbits w).var = s.var := rfl
@[simp] theorem withFetchWord_cst (s : State) (nbits w : Nat) : (s.withFetchWord nbits w).cst = s.cst := rfl
@[simp] theorem withFetchWord_fcode (s : State) (nbits w : Nat) : (s.withFetchWord nbits w).fcode = s.fcode := rfl
@[simp] theorem withFetchWord_subbyteAlign (s : State) (nbits w : Nat) : (s.withFetchWord nbits w).subbyteAlign = s.subbyteAlign := rfl
@[simp] theorem withFetchWord_cmd (s : State) (nbits w : Nat) : (s.withFetchWord nbits w).cmd = tableItems nbits w ++ s.cmd := rfl
@[simp] theorem withFetchWord_discarding (s : State) (nbits w : Nat) : (s.withFetchWord nbits w).discarding = s.discarding := rfl
@[simp] theorem withFetchWord_dout (s : State) (nbits w : Nat) : (s.withFetchWord nbits w).dout = [] := rfl
@[simp] theorem withFetchWord_host (s : State) (nbits w : Nat) : (s.withFetchWord nbits w).host = s.host := rfl
@[simp] theorem withFetchWord_taken (s : State) (nbits w : Nat) : (s.withFetchWord nbits w).taken = [] := rfl
@[simp] theorem withFetchWord_digests (s : State) (nbits w : Nat) : (s.withFetchWord nbits w).digests = s.digests := rfl
@[simp] theorem withFetchWord_statusLog (s : State) (nbits w : Nat) : (s.withFetchWord nbits w).statusLog = s.statusLog := rfl

/-! ### The state after reset -/

@[simp] theorem reset_h : State.reset.h = none := rfl
@[simp] theorem reset_buf : State.reset.buf = emptyBuf := rfl
@[simp] theorem reset_blen : State.reset.blen = none := rfl
@[simp] theorem reset_tbits : State.reset.tbits = none := rfl
@[simp] theorem reset_var : State.reset.var = .sha256 := rfl
@[simp] theorem reset_cst : State.reset.cst = .uninit := rfl
@[simp] theorem reset_fcode : State.reset.fcode = FaultCode.none := rfl
@[simp] theorem reset_subbyteAlign : State.reset.subbyteAlign = .low := rfl
@[simp] theorem reset_cmd : State.reset.cmd = [] := rfl
@[simp] theorem reset_discarding : State.reset.discarding = false := rfl
@[simp] theorem reset_dout : State.reset.dout = [] := rfl
@[simp] theorem reset_host : State.reset.host = [] := rfl
@[simp] theorem reset_taken : State.reset.taken = [] := rfl
@[simp] theorem reset_digests : State.reset.digests = [] := rfl
@[simp] theorem reset_statusLog : State.reset.statusLog = [] := rfl

/-! ### The command port after reset is asserted -/

theorem assertReset_cmd_idle (s : State) (h : s.dout = []) : (assertReset s).cmd = [] := by simp [assertReset, h]

theorem assertReset_cmd_inTransit (s : State) (h : s.dout ≠ []) : (assertReset s).cmd = s.cmd := by
  cases hd : s.dout with
  | nil => exact absurd hd h
  | cons b rest => simp [assertReset, hd]

end Sys2Proof.Machine
end

