-- ==== Sys2Proof/Laws/Ops.lean ====
section
/-! SUPPORT. What each shared operation can do, once (section 2 of the proof strategies): the provers cite these
instead of unfolding the operations. -/

namespace Sys2Proof.Machine

/-! ### Reads of context fields -/

@[simp] theorem readField_some {α : Type} (f : ContextField) (v : α) : readField f (some v) = .ok v := rfl

@[simp] theorem readField_none {α : Type} (f : ContextField) :
    readField f (none : Option α) = .error (.unspecifiedRead f) := rfl

theorem readField_eq_ok {α : Type} {f : ContextField} {o : Option α} {v : α} (h : readField f o = .ok v) :
    o = some v := by
  cases o with
  | none => simp at h
  | some w => simpa using h

@[simp] theorem outcomeOf_ok (s : State) : outcomeOf (.ok s) = .next s := rfl

@[simp] theorem outcomeOf_error (f : Fault) : outcomeOf (.error f) = .fault f := rfl

theorem outcomeOf_eq_next {e : Except Fault State} {t : State} (h : outcomeOf e = .next t) : e = .ok t := by
  cases e with
  | error f => simp at h
  | ok s => simpa using h

@[simp] theorem except_bind_ok {ε α β : Type} (a : α) (f : α → Except ε β) : (Except.ok a >>= f) = f a := rfl

@[simp] theorem except_bind_error {ε α β : Type} (e : ε) (f : α → Except ε β) :
    ((Except.error e : Except ε α) >>= f) = .error e := rfl

@[simp] theorem except_return {ε α : Type} (a : α) : (return a : Except ε α) = .ok a := rfl

theorem except_bind_eq_ok {ε α β : Type} {x : Except ε α} {f : α → Except ε β} {r : β} (h : x >>= f = .ok r) :
    ∃ a, x = .ok a ∧ f a = .ok r := by
  cases x with
  | error e => simp at h
  | ok a => exact ⟨a, rfl, by simpa using h⟩

/-! ### The preamble -/

theorem preamble_fault {u : Bool} {s : State} {k : State → Result} (h : s.cst = .fault) :
    preamble u s k = .next s := by simp [preamble, h]

theorem preamble_active {u : Bool} {s : State} {k : State → Result} (h : s.cst = .active) :
    preamble u s k = k s := by simp [preamble, h]

theorem preamble_uninit {s : State} {k : State → Result} (h : s.cst = .uninit) :
    preamble true s k = .next (raiseFault .notInitialized s) := by simp [preamble, h]

theorem preamble_done {s : State} {k : State → Result} (h : s.cst = .done) :
    preamble true s k = .next (raiseFault .finalizedContext s) := by simp [preamble, h]

theorem preamble_plain {s : State} {k : State → Result} (h : s.cst ≠ .fault) : preamble false s k = k s := by
  cases hc : s.cst <;> simp_all [preamble]

/-- All a preamble that needs the context can do. -/
theorem preamble_cases {s t : State} {k : State → Result} (h : preamble true s k = .next t) :
    (s.cst = .fault ∧ t = s) ∨ (s.cst = .active ∧ k s = .next t) ∨
    (s.cst = .uninit ∧ t = raiseFault .notInitialized s) ∨
    (s.cst = .done ∧ t = raiseFault .finalizedContext s) := by
  cases hc : s.cst <;> simp_all [preamble]

/-! ### Buffers -/

@[simp] theorem emptyBuf_get (i : Nat) (hi : i < 64) : emptyBuf[i] = none := by simp [emptyBuf]

theorem zeroFill_get (buf : Vector (Option Byte) 64) (lo hi i : Nat) (h : i < 64) :
    (zeroFill buf lo hi)[i] = if lo ≤ i ∧ i ≤ hi then some 0#8 else buf[i] := by simp [zeroFill]

theorem putLength_get (buf : Vector (Option Byte) 64) (v : BitVec 64) (i : Nat) (h : i < 64) :
    (putLength buf v)[i] = if _h : 56 ≤ i then some (ser64 v)[i - 56] else buf[i] := by simp [putLength]

theorem ser64_get (v : BitVec 64) (i : Nat) (h : i < 8) : (ser64 v)[i] = v.extractLsb' (56 - 8 * i) 8 := by
  simp [ser64]

/-- A buffer whose 64 bytes are a block's reads as that block. -/
theorem fullBlock_eq_some {buf : Vector (Option Byte) 64} {block : Vector Byte 64}
    (h : ∀ (i : Nat) (hi : i < 64), buf[i] = some block[i]) : fullBlock buf = some block := by
  have hs : ∀ i : Fin 64, (buf[i]).isSome := fun i => by simp [h i.val i.isLt]
  rw [fullBlock, dif_pos hs, Option.some_inj]
  refine Vector.ext fun i hi => ?_
  rw [Vector.getElem_ofFn]
  exact Option.get_of_eq_some _ (h i hi)

theorem fullBlock_of_valid {buf : Vector (Option Byte) 64} (h : ∀ i : Fin 64, (buf[i]).isSome) :
    ∃ block, fullBlock buf = some block := ⟨_, by rw [fullBlock, dif_pos h]⟩

theorem fullBlock_get {buf : Vector (Option Byte) 64} {block : Vector Byte 64} (h : fullBlock buf = some block)
    (i : Nat) (hi : i < 64) : buf[i] = some block[i] := by
  rw [fullBlock] at h
  split at h
  · obtain rfl := by simpa using h
    simp
  · simp at h

/-! ### Absorbing bytes -/

/-- All that absorbing one byte can do (R113). -/
theorem absorbByte_cases {b : Byte} {s t : State} (h : absorbByte b s = .ok t) :
    (∃ (n : Fin 64) (hn : n.val + 1 < 64), s.blen = some n ∧
      t = { s with buf := s.buf.set n.val (some b), blen := some ⟨n.val + 1, hn⟩ }) ∨
    (∃ (n : Fin 64) (hv : Vector Word 8) (block : Vector Byte 64), n.val = 63 ∧ s.blen = some n ∧ s.h = some hv ∧
      fullBlock (s.buf.set n.val (some b)) = some block ∧
      t = { s with h := some (compress hv block), buf := emptyBuf, blen := some 0 }) := by
  obtain ⟨n, hn, h⟩ := except_bind_eq_ok h
  have hn := readField_eq_ok hn
  by_cases hlt : n.val + 1 < 64
  · simp only [hlt, dite_true, except_return, Except.ok.injEq] at h
    exact .inl ⟨n, hlt, hn, h.symm⟩
  · simp only [hlt, dite_false, compressFullBuffer] at h
    obtain ⟨hv, hh, h⟩ := except_bind_eq_ok h
    obtain ⟨block, hb, h⟩ := except_bind_eq_ok h
    simp only [except_return, Except.ok.injEq] at h
    exact .inr ⟨n, hv, block, by omega, hn, readField_eq_ok hh, readField_eq_ok hb, h.symm⟩

/-- Absorbing a byte writes `H`, `BUF` and `BLEN` only. -/
theorem absorbByte_frame {b : Byte} {s t : State} (h : absorbByte b s = .ok t) :
    t = { s with h := t.h, buf := t.buf, blen := t.blen } := by
  obtain ⟨n, hn, -, rfl⟩ | ⟨n, hv, block, -, -, -, -, rfl⟩ := absorbByte_cases h <;> rfl

@[simp] theorem absorbBytes_nil (s : State) : absorbBytes [] s = .ok s := rfl

@[simp] theorem absorbBytes_cons (b : Byte) (bs : List Byte) (s : State) :
    absorbBytes (b :: bs) s = absorbByte b s >>= absorbBytes bs := rfl

/-- Bytes are absorbed one after another (the reason of R115). -/
theorem absorbBytes_append (p q : List Byte) (s : State) :
    absorbBytes (p ++ q) s = absorbBytes p s >>= absorbBytes q := by
  induction p generalizing s with
  | nil => rfl
  | cons b bs ih =>
    simp only [List.cons_append, absorbBytes_cons]
    cases h : absorbByte b s with
    | error e => rfl
    | ok s' => simpa [h] using ih s'

/-- Absorbing bytes writes `H`, `BUF` and `BLEN` only. -/
theorem absorbBytes_frame {p : List Byte} {s t : State} (h : absorbBytes p s = .ok t) :
    t = { s with h := t.h, buf := t.buf, blen := t.blen } := by
  induction p generalizing s with
  | nil => simp at h; subst h; rfl
  | cons b bs ih =>
    obtain ⟨s', hs', h⟩ := except_bind_eq_ok h
    have h1 := absorbByte_frame hs'
    have h2 := ih h
    rw [h1] at h2
    exact h2

/-- What lets bytes be absorbed: `H` and `BLEN` hold values, and exactly the bytes below `BLEN` are valid. -/
structure Absorbing (s : State) (hv : Vector Word 8) (n : Fin 64) : Prop where
  h : s.h = some hv
  blen : s.blen = some n
  valid : ∀ (i : Nat) (hi : i < 64), (s.buf[i]).isSome ↔ i < n.val

/-- Absorbing a byte in such a state succeeds and leads to such a state, with `BLEN` one on modulo 64. -/
theorem absorbByte_absorbing {s : State} {hv : Vector Word 8} {n : Fin 64} (b : Byte) (hs : Absorbing s hv n) :
    ∃ t hv' n', absorbByte b s = .ok t ∧ Absorbing t hv' n' ∧ n'.val = (n.val + 1) % 64 := by
  by_cases hlt : n.val + 1 < 64
  · refine ⟨{ s with buf := s.buf.set n.val (some b), blen := some ⟨n.val + 1, hlt⟩ }, hv, ⟨n.val + 1, hlt⟩,
      by simp [absorbByte, hs.blen, hlt], ⟨hs.h, rfl, fun i hi => ?_⟩, by simp; omega⟩
    rw [Vector.getElem_set]
    by_cases hin : n.val = i
    · simp [hin]
    · simp only [hin, if_false, hs.valid i hi]
      omega
  · have hn : n.val = 63 := by omega
    have hfull : ∀ i : Fin 64, ((s.buf.set n.val (some b))[i]).isSome := by
      intro i
      simp only [Fin.getElem_fin, Vector.getElem_set]
      by_cases hin : n.val = i.val
      · simp [hin]
      · simp only [hin, if_false, hs.valid i.val i.isLt]
        omega
    obtain ⟨block, hblock⟩ := fullBlock_of_valid hfull
    refine ⟨{ s with h := some (compress hv block), buf := emptyBuf, blen := some 0 }, compress hv block, 0,
      by simp [absorbByte, hs.blen, hlt, compressFullBuffer, hs.h, hblock],
      ⟨rfl, rfl, fun i hi => ?_⟩, by simp [hn]⟩
    change (emptyBuf[i]).isSome ↔ _
    simp

theorem absorbBytes_absorbing {s : State} {hv : Vector Word 8} {n : Fin 64} (p : List Byte)
    (hs : Absorbing s hv n) :
    ∃ t hv' n', absorbBytes p s = .ok t ∧ Absorbing t hv' n' ∧ n'.val = (n.val + p.length) % 64 := by
  induction p generalizing s hv n with
  | nil => exact ⟨s, hv, n, rfl, hs, by simp; omega⟩
  | cons b bs ih =>
    obtain ⟨t1, hv1, n1, h1, hs1, hn1⟩ := absorbByte_absorbing b hs
    obtain ⟨t, hv', n', h2, hs2, hn2⟩ := ih hs1
    refine ⟨t, hv', n', by simp [h1, h2], hs2, ?_⟩
    simp only [List.length_cons]
    omega

theorem countBytes_some {s : State} {tb : BitVec 64} (len : Nat) (h : s.tbits = some tb) :
    countBytes len s = .ok { s with tbits := some (tb + BitVec.ofNat 64 (8 * len)) } := by
  simp [countBytes, h]

theorem countBytes_cases {s t : State} {len : Nat} (h : countBytes len s = .ok t) :
    ∃ tb, s.tbits = some tb ∧ t = { s with tbits := some (tb + BitVec.ofNat 64 (8 * len)) } := by
  obtain ⟨tb, htb, h⟩ := except_bind_eq_ok h
  exact ⟨tb, readField_eq_ok htb, by simpa using h.symm⟩

/-- UPDATE's pseudocode writes the context fields only. -/
theorem absorbChunk_frame {len : BitVec 24} {p : List Byte} {s t : State} (h : absorbChunk len p s = .ok t) :
    t = { s with h := t.h, buf := t.buf, blen := t.blen, tbits := t.tbits } := by
  obtain ⟨s', hs', h⟩ := except_bind_eq_ok h
  obtain ⟨tb, -, rfl⟩ := countBytes_cases h
  rw [absorbBytes_frame hs']

/-! ### FINAL's padding -/

theorem padAndCompress_total (h : Vector Word 8) {buf : Vector (Option Byte) 64} {n : Fin 64} (x : Byte)
    (lbit : BitVec 64) (hv : ∀ (i : Nat) (hi : i < 64), (buf[i]).isSome ↔ i < n.val) :
    ∃ h', padAndCompress h buf n x lbit = .ok h' := by
  have hset : ∀ (i : Nat) (hi : i < 64), ((buf.set n.val (some x))[i]).isSome ↔ i < n.val + 1 := by
    intro i hi
    rw [Vector.getElem_set]
    by_cases hin : n.val = i
    · simp [hin]
    · simp only [hin, if_false, hv i hi]
      omega
  have hlast : ∀ (b : Vector (Option Byte) 64) (lo : Nat), (∀ (i : Nat) (hi : i < 64), i < lo → (b[i]).isSome) →
      ∀ hh, ∃ h', compressPadded hh (putLength (zeroFill b lo 55) lbit) = .ok h' := by
    intro b lo hb hh
    have hfull : ∀ i : Fin 64, ((putLength (zeroFill b lo 55) lbit)[i]).isSome := by
      intro i
      simp only [Fin.getElem_fin, putLength_get, zeroFill_get]
      by_cases h56 : 56 ≤ i.val
      · simp [h56]
      · simp only [h56, dite_false]
        by_cases hlo : lo ≤ i.val
        · have : i.val ≤ 55 := by omega
          simp [hlo, this]
        · simp only [hlo, false_and, if_false]
          exact hb i.val i.isLt (by omega)
    obtain ⟨block, hblock⟩ := fullBlock_of_valid hfull
    exact ⟨compress hh block, by simp [compressPadded, hblock]⟩
  by_cases hspill : n.val + 1 > 56
  · have hfull : ∀ i : Fin 64, ((zeroFill (buf.set n.val (some x)) (n.val + 1) 63)[i]).isSome := by
      intro i
      simp only [Fin.getElem_fin, zeroFill_get]
      by_cases hlo : n.val + 1 ≤ i.val
      · have : i.val ≤ 63 := by omega
        simp [hlo, this]
      · simp only [hlo, false_and, if_false]
        exact (hset i.val i.isLt).mpr (by omega)
    obtain ⟨block, hblock⟩ := fullBlock_of_valid hfull
    obtain ⟨h', hh'⟩ := hlast (zeroFill (buf.set n.val (some x)) (n.val + 1) 63) 0 (fun i hi hlt => by omega)
      (compress h block)
    exact ⟨h', by simp [padAndCompress, hspill, compressPadded, hblock] at hh' ⊢; exact hh'⟩
  · obtain ⟨h', hh'⟩ := hlast (buf.set n.val (some x)) (n.val + 1) (fun i hi hlt => (hset i hi).mpr hlt) h
    exact ⟨h', by simp only [padAndCompress, hspill, if_false]; exact hh'⟩

/-- All that FINAL's pseudocode can do: it emits a digest, clears the context and sets `CST` (R160, R167). -/
theorem finalizeContext_cases {n : BitVec 3} {ub : Byte} {s t : State} (h : finalizeContext n ub s = .ok t) :
    ∃ tb used hv hv', s.tbits = some tb ∧ s.blen = some used ∧ s.h = some hv ∧
      padAndCompress hv s.buf used (sentinel s.subbyteAlign n ub) (lengthValue tb n) = .ok hv' ∧
      t = { clearContext (sendDigest (digestBytes s.var hv') s) with cst := .done } := by
  obtain ⟨tb, htb, h⟩ := except_bind_eq_ok h
  obtain ⟨used, hu, h⟩ := except_bind_eq_ok h
  obtain ⟨hv, hh, h⟩ := except_bind_eq_ok h
  obtain ⟨hv', hp, h⟩ := except_bind_eq_ok h
  exact ⟨tb, used, hv, hv', readField_eq_ok htb, readField_eq_ok hu, readField_eq_ok hh, hp, by simpa using h.symm⟩

theorem finalizeContext_of_padded {n : BitVec 3} {ub : Byte} {s : State} {tb : BitVec 64} {used : Fin 64}
    {hv hv' : Vector Word 8} (ht : s.tbits = some tb) (hu : s.blen = some used) (hh : s.h = some hv)
    (hp : padAndCompress hv s.buf used (sentinel s.subbyteAlign n ub) (lengthValue tb n) = .ok hv') :
    finalizeContext n ub s = .ok { clearContext (sendDigest (digestBytes s.var hv') s) with cst := .done } := by
  simp [finalizeContext, ht, hu, hh, hp]

@[simp] theorem ser32_length (w : Word) : (ser32 w).length = 4 := rfl

/-- The digest has four bytes for each of its words. -/
theorem digestBytes_length (v : Variant) (h : Vector Word 8) : (digestBytes v h).length = 4 * digestWords v := by
  cases v <;> simp [digestBytes, digestWords, List.length_flatMap]

/-! ### The host's actions -/

@[simp] theorem hostAct_sendWord (w : Word) (s : State) :
    hostAct (.sendWord w) s = { s with cmd := s.cmd ++ [.word w] } := rfl

@[simp] theorem hostAct_sendByte (b : Byte) (s : State) :
    hostAct (.sendByte b) s = { s with cmd := s.cmd ++ [.byte b] } := rfl

@[simp] theorem hostAct_readStatus (s : State) :
    hostAct .readStatus s = { s with statusLog := s.statusLog ++ [s.statusPort] } := rfl

@[simp] theorem hostAct_assertReset (s : State) : hostAct .assertReset s = assertReset s := rfl

@[simp] theorem hostAct_takeDigestByte (s : State) : hostAct .takeDigestByte s = takeDigestByte s := rfl

theorem takeDigestByte_nil {s : State} (h : s.dout = []) : takeDigestByte s = s := by
  simp [takeDigestByte, h]

/-- The last byte: the digest has been taken. -/
theorem takeDigestByte_last {s : State} {b : Byte} (h : s.dout = [b]) :
    takeDigestByte s = { s with dout := [], taken := [], digests := s.digests ++ [s.taken ++ [b]] } := by
  simp [takeDigestByte, h]

/-- A byte with another behind it: the digest stays in transit. -/
theorem takeDigestByte_more {s : State} {b c : Byte} {rest : List Byte} (h : s.dout = b :: c :: rest) :
    takeDigestByte s = { s with dout := c :: rest, taken := s.taken ++ [b] } := by
  simp [takeDigestByte, h]

/-- All that taking a digest byte can do. -/
theorem takeDigestByte_cases (s : State) :
    (s.dout = [] ∧ takeDigestByte s = s) ∨
    (∃ b, s.dout = [b] ∧
      takeDigestByte s = { s with dout := [], taken := [], digests := s.digests ++ [s.taken ++ [b]] }) ∨
    (∃ b c rest, s.dout = b :: c :: rest ∧
      takeDigestByte s = { s with dout := c :: rest, taken := s.taken ++ [b] }) := by
  rcases hd : s.dout with - | ⟨b, - | ⟨c, rest⟩⟩
  · exact .inl ⟨rfl, takeDigestByte_nil hd⟩
  · exact .inr (.inl ⟨b, rfl, takeDigestByte_last hd⟩)
  · exact .inr (.inr ⟨b, c, rest, rfl, takeDigestByte_more hd⟩)

theorem hostTurn_nil {s : State} (h : s.host = []) : hostTurn s = s := by simp [hostTurn, h]

theorem hostTurn_cons {s : State} {a : HostAction} {rest : List HostAction} (h : s.host = a :: rest) :
    hostTurn s = hostAct a { s with host := rest } := by simp [hostTurn, h]

/-- What a host's turn can do: reset, the taking of a digest byte, or an action that writes the command port or
the record of STATUS reads and nothing else. -/
theorem hostTurn_cases (s : State) :
    (∃ rest, s.host = .assertReset :: rest ∧ hostTurn s = assertReset { s with host := rest }) ∨
    (∃ rest, s.host = .takeDigestByte :: rest ∧ hostTurn s = takeDigestByte { s with host := rest }) ∨
    hostTurn s = { s with cmd := (hostTurn s).cmd, host := (hostTurn s).host,
                          statusLog := (hostTurn s).statusLog } := by
  cases hh : s.host with
  | nil => exact .inr (.inr (by simp [hostTurn_nil hh]))
  | cons a rest =>
    rw [hostTurn_cons hh]
    cases a with
    | sendWord w => exact .inr (.inr rfl)
    | sendByte b => exact .inr (.inr rfl)
    | readStatus => exact .inr (.inr rfl)
    | assertReset => exact .inl ⟨rest, rfl, rfl⟩
    | takeDigestByte => exact .inr (.inl ⟨rest, rfl, rfl⟩)

end Sys2Proof.Machine
end

