-- ==== Sys2Proof/Laws/Decode.lean ====
section
/-! SUPPORT. The payload reader and the decoder, one lemma per case. -/

namespace Sys2Proof

/-- A payload that is all there is taken whole. -/
theorem takePayload_bytes (p : List Byte) (rest : List PortItem) :
    takePayload p.length (p.map .byte ++ rest) = .complete p rest := by
  induction p with
  | nil => rfl
  | cons b bs ih => simp [takePayload, ih]

/-- What is taken is what stood there. -/
theorem takePayload_complete {n : Nat} {items rest : List PortItem} {p : List Byte}
    (h : takePayload n items = .complete p rest) : p.length = n ∧ items = p.map .byte ++ rest := by
  induction n generalizing items p with
  | zero =>
    simp only [takePayload, PayloadResult.complete.injEq] at h
    obtain ⟨rfl, rfl⟩ := h
    simp
  | succ n ih =>
    cases items with
    | nil => simp [takePayload] at h
    | cons x xs =>
      cases x with
      | word w => simp [takePayload] at h
      | byte b =>
        cases hr : takePayload n xs with
        | complete q r =>
          simp only [takePayload, hr, PayloadResult.complete.injEq] at h
          obtain ⟨rfl, rfl⟩ := h
          obtain ⟨hl, rfl⟩ := ih hr
          simp [hl]
        | missing => simp [takePayload, hr] at h
        | interrupted => simp [takePayload, hr] at h

/-- A payload that has not all arrived is missing. -/
theorem takePayload_short {n : Nat} {p : List Byte} (h : p.length < n) :
    takePayload n (p.map .byte) = .missing := by
  induction p generalizing n with
  | nil =>
    cases n with
    | zero => simp at h
    | succ n => rfl
  | cons b bs ih =>
    cases n with
    | zero => simp at h
    | succ n => simp [takePayload, ih (n := n) (by simpa using h)]

/-- A payload cut short by a word is interrupted. -/
theorem takePayload_cut {n : Nat} {p : List Byte} (w : Word) (rest : List PortItem) (h : p.length < n) :
    takePayload n (p.map .byte ++ .word w :: rest) = .interrupted := by
  induction p generalizing n with
  | nil =>
    cases n with
    | zero => simp at h
    | succ n => rfl
  | cons b bs ih =>
    cases n with
    | zero => simp at h
    | succ n => simp [takePayload, ih (n := n) (by simpa using h)]

@[simp] theorem decode_nil : decode [] = .waiting := rfl

@[simp] theorem decode_byte (b : Byte) (rest : List PortItem) : decode (.byte b :: rest) = .strayByte b rest := rfl

theorem decode_illegal {w : Word} (rest : List PortItem) (h : decodeWord w = none) :
    decode (.word w :: rest) = .illegal w rest := by simp [decode, h]

theorem decode_init {w : Word} {v : Variant} (rest : List PortItem) (h : decodeWord w = some (.init v)) :
    decode (.word w :: rest) = .instr (.init v) rest := by simp [decode, h]

theorem decode_final {w : Word} {n : BitVec 3} {ub : Byte} (rest : List PortItem)
    (h : decodeWord w = some (.final n ub)) : decode (.word w :: rest) = .instr (.final n ub) rest := by
  simp [decode, h]

theorem decode_update {w : Word} {len : BitVec 24} {p : List Byte} (rest : List PortItem)
    (h : decodeWord w = some (.update len)) (hp : p.length = len.toNat) :
    decode (.word w :: (p.map .byte ++ rest)) = .instr (.update len p) rest := by
  simp [decode, h, ← hp, takePayload_bytes]

theorem decode_update_waiting {w : Word} {len : BitVec 24} {p : List Byte}
    (h : decodeWord w = some (.update len)) (hp : p.length < len.toNat) :
    decode (.word w :: p.map .byte) = .waiting := by
  simp [decode, h, takePayload_short hp]

theorem decode_update_cut {w : Word} {len : BitVec 24} {p : List Byte} (w' : Word) (rest : List PortItem)
    (h : decodeWord w = some (.update len)) (hp : p.length < len.toNat) :
    decode (.word w :: (p.map .byte ++ .word w' :: rest)) = .payloadShort := by
  simp [decode, h, takePayload_cut w' rest hp]

/-- All that decoding to a command says of the items. -/
theorem decode_instr_cases {items rest : List PortItem} {i : Instr} (h : decode items = .instr i rest) :
    ∃ w, decodeWord w = some i.header ∧ items = .word w :: (i.payload.map .byte ++ rest) ∧
      i.wellFormed = true := by
  cases items with
  | nil => simp at h
  | cons x xs =>
    cases x with
    | byte b => simp at h
    | word w =>
      cases hd : decodeWord w with
      | none => simp [decode, hd] at h
      | some hdr =>
        cases hdr with
        | init v =>
          simp only [decode, hd, DecodeResult.instr.injEq] at h
          obtain ⟨rfl, rfl⟩ := h
          exact ⟨w, hd, rfl, rfl⟩
        | final n ub =>
          simp only [decode, hd, DecodeResult.instr.injEq] at h
          obtain ⟨rfl, rfl⟩ := h
          exact ⟨w, hd, rfl, rfl⟩
        | update len =>
          cases hp : takePayload len.toNat xs with
          | complete p r =>
            simp only [decode, hd, hp, DecodeResult.instr.injEq] at h
            obtain ⟨rfl, rfl⟩ := h
            obtain ⟨hl, rfl⟩ := takePayload_complete hp
            exact ⟨w, hd, rfl, by simp [Instr.wellFormed, hl]⟩
          | missing => simp [decode, hd, hp] at h
          | interrupted => simp [decode, hd, hp] at h

end Sys2Proof
end

