-- ==== Sys2Proof/Laws/PerInstr.lean ====
section
/-! SUPPORT. Statements about every command as syntax, one lemma per constructor: the decoder reads a command's word
back as the command's fields (R83 to R89). -/

namespace Sys2Proof.Laws.HeaderRoundTrip

/-- The word of a command decodes to its fields. -/
def Statement (i : Instr) : Prop := decodeWord (encodeWord i) = some i.header

theorem init (v : Variant) : Statement (.init v) := by
  show decodeWord (encodeHeader (.init v)) = _
  cases v <;> decide

/-- The word of an UPDATE is `(LEN << 8) | 0x02` (R94, R112). -/
theorem updateWord_toNat (len : BitVec 24) : (encodeHeader (.update len)).toNat = len.toNat * 256 + 2 := by
  have hlen : len.toNat < 2 ^ 24 := len.isLt
  have h1 : len.toNat * 2 ^ 4 ||| 0 % 2 ^ 4 = len.toNat * 2 ^ 4 := by simp
  have h2 : len.toNat * 2 ^ 4 * 2 ^ 4 ||| 2 % 2 ^ 4 = len.toNat * 2 ^ 4 * 2 ^ 4 + 2 := by
    have h := Nat.shiftLeft_add_eq_or_of_lt (b := 2) (i := 4) (by decide) (len.toNat * 2 ^ 4)
    rw [Nat.shiftLeft_eq] at h
    simpa using h.symm
  simp only [encodeHeader, BitVec.toNat_append, BitVec.toNat_ofNat, Nat.shiftLeft_eq]
  rw [h1, h2]
  omega

theorem update (len : BitVec 24) (p : List Byte) : Statement (.update len p) := by
  show decodeWord (encodeHeader (.update len)) = some (.update len)
  have hw := updateWord_toNat len
  generalize encodeHeader (.update len) = w at hw
  have h2 : w &&& 0x000000FF#32 = 0x00000002#32 := by
    apply BitVec.eq_of_toNat_eq
    have h := Nat.and_two_pow_sub_one_eq_mod w.toNat 8
    simp only [BitVec.toNat_and, BitVec.toNat_ofNat]
    norm_num at h ⊢
    omega
  have h1 : ¬ w &&& 0xFFFFFFEF#32 = 0x00000001#32 := by
    intro h
    have e1 := congrArg (fun v => v.getLsbD 0) h
    have e2 := congrArg (fun v => v.getLsbD 0) h2
    simp at e1 e2
    simp [e1] at e2
  have hl : lenField w = len := by
    apply BitVec.eq_of_toNat_eq
    simp only [lenField, BitVec.extractLsb'_toNat, hw, Nat.shiftRight_eq_div_pow]
    have hlen : len.toNat < 2 ^ 24 := len.isLt
    omega
  rw [decodeWord, if_neg h1, if_pos h2, hl]

theorem final (n : BitVec 3) (ub : Byte) : Statement (.final n ub) := by
  show decodeWord (encodeHeader (.final n ub)) = some (.final n ub)
  revert n ub
  decide +kernel

end Sys2Proof.Laws.HeaderRoundTrip
end

