-- ==== Sys2Proof/Laws/Step.lean ====
section
/-! SUPPORT. What a command's meaning and a step can do, once: every invariant and frame follows from these. -/

namespace Sys2Proof.Machine

theorem exec_init (v : Variant) (s : State) :
    exec (.init v) s = preamble false s fun s => .next (initContext v s) := rfl

theorem exec_update (len : BitVec 24) (p : List Byte) (s : State) :
    exec (.update len p) s =
      if p.length = len.toNat then preamble true s fun s => outcomeOf (absorbChunk len p s)
      else .refused .payloadLength := rfl

theorem exec_update_wellFormed {len : BitVec 24} {p : List Byte} (s : State) (h : p.length = len.toNat) :
    exec (.update len p) s = preamble true s fun s => outcomeOf (absorbChunk len p s) := by
  rw [exec_update, if_pos h]

theorem exec_final (n : BitVec 3) (ub : Byte) (s : State) :
    exec (.final n ub) s = preamble true s fun s => outcomeOf (finalizeContext n ub s) := rfl

/-- All that INIT can do (R111, R189). -/
theorem execInit_cases {v : Variant} {s t : State} (h : exec (.init v) s = .next t) :
    (s.cst = .fault ∧ t = s) ∨ (s.cst ≠ .fault ∧ t = initContext v s) := by
  by_cases hc : s.cst = .fault
  · rw [exec_init, preamble_fault hc] at h
    exact .inl ⟨hc, by simpa using h.symm⟩
  · rw [exec_init, preamble_plain hc] at h
    exact .inr ⟨hc, by simpa using h.symm⟩

/-- All that UPDATE can do (R112, R183, R184, R189, R215). -/
theorem execUpdate_cases {len : BitVec 24} {p : List Byte} {s t : State} (h : exec (.update len p) s = .next t) :
    p.length = len.toNat ∧
    ((s.cst = .fault ∧ t = s) ∨
     (s.cst = .active ∧ absorbChunk len p s = .ok t) ∨
     (s.cst = .uninit ∧ t = raiseFault .notInitialized s) ∨
     (s.cst = .done ∧ t = raiseFault .finalizedContext s)) := by
  by_cases hp : p.length = len.toNat
  · rw [exec_update_wellFormed s hp] at h
    refine ⟨hp, ?_⟩
    rcases preamble_cases h with h | ⟨hc, h⟩ | h | h
    · exact .inl h
    · exact .inr (.inl ⟨hc, outcomeOf_eq_next h⟩)
    · exact .inr (.inr (.inl h))
    · exact .inr (.inr (.inr h))
  · rw [exec_update, if_neg hp] at h
    cases h

/-- All that FINAL can do (R160, R183, R184, R189). -/
theorem execFinal_cases {n : BitVec 3} {ub : Byte} {s t : State} (h : exec (.final n ub) s = .next t) :
    (s.cst = .fault ∧ t = s) ∨
    (s.cst = .active ∧ finalizeContext n ub s = .ok t) ∨
    (s.cst = .uninit ∧ t = raiseFault .notInitialized s) ∨
    (s.cst = .done ∧ t = raiseFault .finalizedContext s) := by
  rw [exec_final] at h
  rcases preamble_cases h with h | ⟨hc, h⟩ | h | h
  · exact .inl h
  · exact .inr (.inl ⟨hc, outcomeOf_eq_next h⟩)
  · exact .inr (.inr (.inl h))
  · exact .inr (.inr (.inr h))

theorem execUpdate_active {len : BitVec 24} {p : List Byte} {s : State} (hc : s.cst = .active)
    (hp : p.length = len.toNat) : exec (.update len p) s = outcomeOf (absorbChunk len p s) := by
  rw [exec_update_wellFormed s hp, preamble_active hc]

theorem execFinal_active {n : BitVec 3} {ub : Byte} {s : State} (hc : s.cst = .active) :
    exec (.final n ub) s = outcomeOf (finalizeContext n ub s) := by
  rw [exec_final, preamble_active hc]

/-- All that an ill-formed word can do (R182, R189). -/
theorem illegalCommand_cases (s : State) :
    (s.cst = .fault ∧ illegalCommand s = s) ∨
    (s.cst ≠ .fault ∧ illegalCommand s = raiseFault .illegalCommand s) := by
  cases h : s.cst <;> simp [illegalCommand, h]

theorem step_idle {s : State} (h : s.dout = []) : step s = takeTransaction s := by
  unfold step advance
  split
  · rfl
  · simp_all

theorem step_inTransit {s : State} (h : s.dout ≠ []) : step s = .next (hostTurn s) := by
  unfold step advance
  split
  · exact absurd ‹_› h
  · rfl

/-- All that a step can do. -/
theorem step_cases {s t : State} (h : step s = .next t) :
    ((s.dout ≠ [] ∨ decode s.cmd = .waiting) ∧ t = hostTurn s) ∨
    (s.dout = [] ∧ ∃ w rest, decode s.cmd = .illegal w rest ∧
      t = illegalCommand { s with cmd := rest, discarding := true }) ∨
    (s.dout = [] ∧ ∃ b rest, decode s.cmd = .strayByte b rest ∧ s.discarding = true ∧ t = { s with cmd := rest }) ∨
    (s.dout = [] ∧ ∃ i rest, decode s.cmd = .instr i rest ∧
      exec i { s with cmd := rest, discarding := discardsPayload i s.cst } = .next t) := by
  by_cases hd : s.dout = []
  · rw [step_idle hd] at h
    rw [takeTransaction] at h
    split at h
    · exact .inr (.inr (.inr ⟨hd, _, _, ‹_›, h⟩))
    · cases h
      exact .inr (.inl ⟨hd, _, _, ‹_›, rfl⟩)
    · rw [strayByte] at h
      split at h <;> cases h
      exact .inr (.inr (.inl ⟨hd, _, _, ‹_›, ‹_›, rfl⟩))
    · cases h
    · cases h
      exact .inl ⟨.inr ‹_›, rfl⟩
  · rw [step_inTransit hd] at h
    cases h
    exact .inl ⟨.inl hd, rfl⟩

theorem step_waiting {s : State} (hd : s.dout = []) (h : decode s.cmd = .waiting) : step s = .next (hostTurn s) := by
  rw [step_idle hd, takeTransaction, h]

theorem step_instr {s : State} {i : Instr} {rest : List PortItem} (hd : s.dout = [])
    (h : decode s.cmd = .instr i rest) :
    step s = exec i { s with cmd := rest, discarding := discardsPayload i s.cst } := by
  rw [step_idle hd, takeTransaction, h]

theorem step_illegal {s : State} {w : Word} {rest : List PortItem} (hd : s.dout = [])
    (h : decode s.cmd = .illegal w rest) :
    step s = .next (illegalCommand { s with cmd := rest, discarding := true }) := by
  rw [step_idle hd, takeTransaction, h]

theorem step_strayByte {s : State} {b : Byte} {rest : List PortItem} (hd : s.dout = [])
    (h : decode s.cmd = .strayByte b rest) : step s = strayByte { s with cmd := rest } := by
  rw [step_idle hd, takeTransaction, h]

theorem step_payloadShort {s : State} (hd : s.dout = []) (h : decode s.cmd = .payloadShort) :
    step s = .refused .payloadLength := by
  rw [step_idle hd, takeTransaction, h]

/-! ### Runs of several steps -/

@[simp] theorem run_zero (s : State) : Sys2Proof.core.run 0 s = .next s := rfl

theorem run_succ {s t : State} (k : Nat) (h : step s = .next t) :
    Sys2Proof.core.run (k + 1) s = Sys2Proof.core.run k t := by
  have h : Sys2Proof.core.step s = .next t := h
  simp only [Host.Core.run, h]

theorem run_one (s : State) : Sys2Proof.core.run 1 s = step s := by
  cases h : step s with
  | next t => rw [run_succ 0 h]; rfl
  | fault f =>
    have h : Sys2Proof.core.step s = .fault f := h
    simp only [Host.Core.run, h]; rfl
  | refused r =>
    have h : Sys2Proof.core.step s = .refused r := h
    simp only [Host.Core.run, h]; rfl

/-- Steps that all answer next states can be run in two parts. -/
theorem run_add {s t : State} {j : Nat} (k : Nat) (h : Sys2Proof.core.run j s = .next t) :
    Sys2Proof.core.run (j + k) s = Sys2Proof.core.run k t := by
  induction j generalizing s with
  | zero =>
    obtain rfl : s = t := Host.Outcome.next.inj h
    rw [Nat.zero_add]
  | succ j ih =>
    cases hs : step s with
    | next s' =>
      rw [run_succ j hs] at h
      rw [Nat.succ_add, run_succ (j + k) hs, ih h]
    | fault f =>
      have hs : Sys2Proof.core.step s = .fault f := hs
      simp [Host.Core.run, hs] at h
    | refused r =>
      have hs : Sys2Proof.core.step s = .refused r := hs
      simp [Host.Core.run, hs] at h

/-! ### Which transactions are discarded with attached payload -/

@[simp] theorem discardsPayload_init (v : Variant) (c : CtxState) :
    discardsPayload (.init v) c = true ↔ c = .fault := by simp [discardsPayload]

@[simp] theorem discardsPayload_update (len : BitVec 24) (p : List Byte) (c : CtxState) :
    discardsPayload (.update len p) c = false := rfl

@[simp] theorem discardsPayload_final (n : BitVec 3) (ub : Byte) (c : CtxState) :
    discardsPayload (.final n ub) c = true ↔ c ≠ .active := by simp [discardsPayload]

/-- A byte behind a transaction that takes no attached payload is refused (R215). -/
theorem strayByte_refused {s : State} (h : s.discarding = false) : strayByte s = .refused .strayPayload := by
  simp [strayByte, h]

/-- A byte behind a discarded transaction is discarded (R92). -/
theorem strayByte_discarded {s : State} (h : s.discarding = true) : strayByte s = .next s := by
  simp [strayByte, h]

end Sys2Proof.Machine
end

