-- ==== Sys2Proof/Laws/Safety.lean ====
section
/-! SUPPORT. How the terms of Safety.lean go through the shared operations. -/

namespace Sys2Proof.Safety

open Sys2Proof.Machine

/-- `Empty` speaks of the context fields only. -/
theorem Empty.transport {s t : State} (e : Empty s) (h : t.h = s.h) (buf : t.buf = s.buf) (blen : t.blen = s.blen)
    (tbits : t.tbits = s.tbits) : Empty t := ⟨h ▸ e.h, buf ▸ e.buf, blen ▸ e.blen, tbits ▸ e.tbits⟩

/-- `Held` speaks of the context fields only. -/
theorem Held.transport {s t : State} (e : Held s) (h : t.h = s.h) (buf : t.buf = s.buf) (blen : t.blen = s.blen)
    (tbits : t.tbits = s.tbits) : Held t where
  accumulator := by rw [h]; exact e.accumulator
  counts := by rw [blen, tbits]; exact e.counts
  valid := fun n hn i => by rw [buf]; exact e.valid n (blen ▸ hn) i

/-- A held context can absorb bytes. -/
theorem Held.absorbing {s : State} (e : Held s) :
    ∃ hv n tb, Absorbing s hv n ∧ s.tbits = some tb ∧ n.val = tb.toNat / 8 % 64 ∧ tb.toNat % 8 = 0 := by
  obtain ⟨hv, hh⟩ := e.accumulator
  obtain ⟨n, tb, hn, ht, h1, h2⟩ := e.counts
  exact ⟨hv, n, tb, ⟨hh, hn, fun i hi => e.valid n hn ⟨i, hi⟩⟩, ht, h1, h2⟩

/-- UPDATE's pseudocode succeeds on a held context and leaves a held one (R47). -/
theorem absorbChunk_held {s : State} {len : BitVec 24} {p : List Byte} (e : Held s) (hp : p.length = len.toNat) :
    ∃ t, absorbChunk len p s = .ok t ∧ Held t := by
  obtain ⟨hv, n, tb, a, ht, h1, h2⟩ := e.absorbing
  obtain ⟨t, hv', n', hok, a', hn'⟩ := absorbBytes_absorbing p a
  have ht' : t.tbits = some tb := by rw [absorbBytes_frame hok]; exact ht
  refine ⟨{ t with tbits := some (tb + BitVec.ofNat 64 (8 * len.toNat)) },
    by simp [absorbChunk, hok, countBytes_some len.toNat ht'],
    ⟨⟨hv', a'.h⟩, ⟨n', _, a'.blen, rfl, ?_, ?_⟩, fun m hm i => ?_⟩⟩
  · rw [BitVec.toNat_add, BitVec.toNat_ofNat]; omega
  · rw [BitVec.toNat_add, BitVec.toNat_ofNat]; omega
  · have hm : t.blen = some m := hm
    rw [a'.blen] at hm
    obtain rfl : n' = m := by simpa using hm
    exact a'.valid i.val i.isLt

/-- FINAL's pseudocode succeeds on a held context. -/
theorem finalizeContext_held {s : State} (n : BitVec 3) (ub : Byte) (e : Held s) :
    ∃ hv, finalizeContext n ub s = .ok { clearContext (sendDigest (digestBytes s.var hv) s) with cst := .done } := by
  obtain ⟨hv, used, tb, a, ht, -, -⟩ := e.absorbing
  obtain ⟨hv', hp⟩ := padAndCompress_total hv (sentinel s.subbyteAlign n ub) (lengthValue tb n) a.valid
  exact ⟨hv', finalizeContext_of_padded ht a.blen a.h hp⟩

end Sys2Proof.Safety
end

