-- ==== Sys2Proof/Tests/Slice0.lean ====
section
/-! SUPPORT. The model's own tests. Expected values come from the spec: the formats of 30_encoding.md R83 to R85 written
out bit by bit, and the vectors of 95_test_vectors.md (each test names its row). The `witness_` theorems show, for each
statement with hypotheses, concrete data that meets them. -/

namespace Sys2Proof.Tests

open Sys2Proof.Machine Sys2Proof.Safety

/-- What a field of the next state is. -/
def after {α : Type} (r : Result) (f : State → α) : Option α :=
  match r with
  | .next t => some (f t)
  | .fault _ => none
  | .refused _ => none

theorem next_of_after {α : Type} {r : Result} {f : State → α} {v : α} (h : after r f = some v) :
    ∃ t, r = .next t ∧ f t = v := by
  cases r with
  | next t => exact ⟨t, rfl, by simpa [after] using h⟩
  | fault e => simp [after] at h
  | refused e => simp [after] at h

/-- "abc". -/
def abc : List Byte := [0x61, 0x62, 0x63]

/-- An `ACTIVE` context that has absorbed fewer than 64 bytes `m` (95 §3.5, §4). -/
def activeCtx (v : Variant) (m : List Byte) : State :=
  { State.reset with
    var := v
    cst := .active
    h := some (initialVector v)
    blen := some (Fin.ofNat 64 m.length)
    tbits := some (BitVec.ofNat 64 (8 * m.length))
    buf := Vector.ofFn fun i : Fin 64 => m[i.val]? }

/-- The engine in `DONE`, and in `FAULT` after a second FINAL (95 §3.7 rows 5, 7). -/
def doneCtx : State := { State.reset with cst := .done }
def faultCtx : State := { State.reset with cst := .fault, fcode := .finalizedContext, discarding := true }

/-- A message of `n` bytes `0x61` (95 §3.3). -/
def as (n : Nat) : List Byte := List.replicate n 0x61

/-! ### WellFormed: an ill-formed term is refused -/

theorem test_payload_of_another_length_is_ill_formed : (Instr.update 3 [0x61, 0x62]).wellFormed = false := by decide
theorem test_payload_of_the_length_is_well_formed : (Instr.update 3 abc).wellFormed = true := by decide

/-! ### Decoding, words written out from R83, R84, R85 and 95 §2 -/

theorem test_decode_init :
    decode [.word 0b000000000000000000000000000_0_0001#32] = .instr (.init .sha256) [] ∧
    decode [.word 0b000000000000000000000000000_1_0001#32] = .instr (.init .sha224) [] := by decide
theorem test_decode_update :
    decode [.word 0b000000000000000000000011_0000_0010#32, .byte 0x61, .byte 0x62, .byte 0x63, .byte 0x64] =
      .instr (.update 3 abc) [.byte 0x64] ∧
    decodeWord 0b111111111111111111111111_0000_0010#32 = some (.update 16777215) := by decide
theorem test_decode_final :
    decode [.word 0b00000000_00000101_00000_011_0000_0011#32] = .instr (.final 3 0x05) [] ∧
    decode [.word 0b00000000_11111111_00000_111_0000_0011#32] = .instr (.final 7 0xff) [] := by decide
theorem test_decode_illegal :
    [0x00000021#32, 0x80000001#32, 0x00000312#32, 0x00000803#32, 0x01000003#32, 0x00000013#32, 0x00000000#32,
      0x00000004#32, 0x0000000f#32].map decodeWord = List.replicate 9 none := by decide
theorem test_decode_table_word :
    decodeTableWord 32 0x00000011 = some (.init .sha224) ∧ decodeTableWord 32 0x00000202 = some (.update 2 [0, 0]) ∧
      decodeTableWord 32 0x00000003 = some (.final 0 0) ∧ decodeTableWord 32 0x00000013 = none := by decide

/-! ### Constants: R137 to R139 recomputed from roots of primes (93 G1, G2) -/

def primes64 : List Nat :=
  [2, 3, 5, 7, 11, 13, 17, 19, 23, 29, 31, 37, 41, 43, 47, 53, 59, 61, 67, 71, 73, 79, 83, 89, 97, 101, 103, 107, 109,
    113, 127, 131] ++
  [137, 139, 149, 151, 157, 163, 167, 173, 179, 181, 191, 193, 197, 199, 211, 223, 227, 229, 233, 239, 241, 251, 257,
    263, 269, 271, 277, 281, 283, 293, 307, 311]

/-- The first 32 fraction bits of the cube root of `p` are `k`. -/
def isCubeRootFraction (k p : Nat) : Bool :=
  (List.range 7).any fun i => (i * 2 ^ 32 + k) ^ 3 ≤ p * 2 ^ 96 && p * 2 ^ 96 < (i * 2 ^ 32 + k + 1) ^ 3

/-- The first `32 * j` fraction bits of the square root of `p` end in the 32 bits `k`. -/
def isSquareRootFraction (j k p : Nat) : Bool :=
  Nat.sqrt (p * 2 ^ (64 * j)) % 2 ^ 32 == k

theorem test_roundK_are_cube_roots :
    (List.zipWith (fun (k : Word) p => isCubeRootFraction k.toNat p) roundK.toList primes64) =
      List.replicate 64 true := by decide +kernel
theorem test_initial_vectors_are_square_roots :
    (List.zipWith (fun (k : Word) p => isSquareRootFraction 1 k.toNat p) iv256.toList (primes64.take 8)) =
      List.replicate 8 true ∧
    (List.zipWith (fun (k : Word) p => isSquareRootFraction 2 k.toNat p) iv224.toList (primes64.drop 8)) =
      List.replicate 8 true := by decide +kernel

/-! ### Word functions and compression: 95 §3.1, §3.2 -/

theorem test_word_functions :
    rotr 0x12345678 7 = 0xf02468ac ∧ bigSigma0 0x12345678 = 0x66146474 ∧ bigSigma1 0x12345678 = 0x3561abda ∧
    smallSigma0 0x12345678 = 0xe7fce6ee ∧ smallSigma1 0x12345678 = 0xa1f78649 ∧
    smallSigma0 0xffffffff = 0x1fffffff ∧ smallSigma1 0xffffffff = 0x003fffff ∧
    ch 0x510e527f 0x9b05688c 0x1f83d9ab = 0x1f85c98c ∧ maj 0x510e527f 0x9b05688c 0x1f83d9ab = 0x1b0758af := by
  decide +kernel

/-- The padded "abc" block of 95 §3.2. -/
def abcBlock : Vector Byte 64 :=
  Vector.ofFn fun i : Fin 64 =>
    if i = 0 then 0x61 else if i = 1 then 0x62 else if i = 2 then 0x63 else if i = 3 then 0x80
    else if i = 63 then 0x18 else 0

theorem test_schedule_of_abc :
    (schedule abcBlock)[16] = 0x61626380 ∧ (schedule abcBlock)[17] = 0x000f0000 ∧
    (schedule abcBlock)[31] = 0xd3b7973b ∧ (schedule abcBlock)[63] = 0x12b1edeb := by decide +kernel
theorem test_first_round_of_abc :
    shaRound (Work.ofAccumulator iv256) roundK[0] 0x61626380 =
      ⟨0x5d6aebcd, 0x6a09e667, 0xbb67ae85, 0x3c6ef372, 0xfa2a4622, 0x510e527f, 0x9b05688c, 0x1f83d9ab⟩ := by
  decide +kernel
theorem test_compress_abc_sha224 :
    (compress iv224 abcBlock).toList =
      [0x23097d22, 0x3405d822, 0x8642a477, 0xbda255b3, 0x2aadbce4, 0xbda0b3f7, 0xe36c9da7, 0xd2da082d] := by
  decide +kernel

/-! ### INIT: 95 §3.5 row 2, §3.7 row 7 -/

theorem test_init_from_reset :
    after (exec (.init .sha224) State.reset) (fun t => (t.cst, t.blen, t.tbits, t.status)) =
      some (.active, some 0, some 0, 0x00000005#32) := by decide +kernel
theorem test_init_is_discarded_in_fault :
    after (exec (.init .sha256) faultCtx) State.status = some 0x00000033#32 := by decide +kernel

/-! ### UPDATE: 95 §4 P1, §3.5 row 7 -/

theorem test_update_abc :
    after (exec (.update 3 abc) (activeCtx .sha256 [])) (fun t => (t.blen, t.tbits, buffered t, t.status)) =
      some (some 3, some 24, abc, 0x00000001#32) := by decide +kernel
theorem test_update_wraps_the_bit_counter :
    after (exec (.update 1 [0]) { activeCtx .sha256 (as 63) with tbits := some 0xfffffffffffffff8#64 })
      (fun t => (t.blen, t.tbits)) = some (some 0, some 0) := by decide +kernel

/-! ### FINAL: 95 §4 P4 (sub-byte), §3.3 row 56 (spill) -/

theorem test_final_abc_with_three_bits :
    after (exec (.final 3 0x05) (activeCtx .sha256 abc)) (fun t => t.dout.take 4) =
      some [0x99, 0xc1, 0x13, 0x63] := by decide +kernel
theorem test_final_spills_at_56 :
    after (exec (.final 0 0) (activeCtx .sha224 (as 56))) (fun t => (t.dout.length, t.dout.drop 24, t.status)) =
      some (28, [0x9f, 0x82, 0x0d, 0xcd], 0x00000006#32) := by decide +kernel
theorem test_sentinel_examples :
    sentinel .low 0 0xff = 0x80 ∧ sentinel .low 3 0x05 = 0xb0 ∧ sentinel .low 7 0x00 = 0x01 ∧
      sentinel .low 7 0x7f = 0xff ∧ sentinel .high 3 0xa0 = 0xb0 := by decide +kernel

/-! ### Engine faults through the step: 95 §3.7 rows 1, 3, 4, 6 -/

theorem test_fault_vectors :
    after (step (State.reset.withFetchWord 32 0x00000004)) State.status = some 0x00000013#32 ∧
    after (step (State.reset.withFetchWord 32 0x00000002)) State.status = some 0x00000023#32 ∧
    after (step (State.reset.withFetchWord 32 0x00000003)) State.status = some 0x00000023#32 ∧
    after (step (doneCtx.withFetchWord 32 0x00000102)) State.status = some 0x00000033#32 := by decide +kernel

/-! ### The ports: 30_encoding.md R92, 70_reset_and_hazards.md R212, R215, R223 -/

/-- The byte attached to an ill-formed word goes with it; the one behind the following refused UPDATE of no bytes is too
many. -/
theorem test_attached_payload :
    after (Sys2Proof.core.run 2 { State.reset with cmd := [.word 0x0#32, .byte 0x78#8] }) (fun t => (t.status, t.cmd)) =
      some (0x00000013#32, []) ∧
    Sys2Proof.core.run 3 { faultCtx with cmd := [.byte 0x78#8, .word 0x2#32, .byte 0x78#8] } = .refused .strayPayload :=
  ⟨by decide +kernel, rfl⟩

/-- A digest of which reset catches the last byte is no digest; one taken whole is. -/
theorem test_aborted_digest_is_not_observed :
    after (Sys2Proof.core.run 2 { doneCtx with dout := as 2, host := [.takeDigestByte, .assertReset] }) observation =
      some (some ([], 0x00000000#32)) ∧
    after (Sys2Proof.core.run 2 { doneCtx with dout := as 2, host := [.takeDigestByte, .takeDigestByte] }) observation =
      some (some ([as 2], 0x00000002#32)) := by decide +kernel

/-! ### Assembler syntax: 30_encoding.md R94, R97, R98 -/

theorem test_assemble_update_with_spaces :
    Assembler.assemble ['U', 'P', 'D', 'A', 'T', 'E', ' ', 'x', Assembler.apostrophe, '6', '1', '6', '2', ' ', '6', '3',
      Assembler.apostrophe] = some [.update 3 abc] := by decide +kernel
theorem test_disassembly_of_an_illegal_word :
    Assembler.disassembleIllegal 0x80000001#32 =
      ['.', 'w', 'o', 'r', 'd', ' ', '0', 'x', '8', '0', '0', '0', '0', '0', '0', '1', ' ', ';', ' ', 'i', 'l', 'l', 'e',
        'g', 'a', 'l'] := by decide +kernel
theorem test_listing_of_update :
    (Assembler.listingLine (.update 3 abc)).take 19 =
      ['0', '0', '0', '0', '0', '3', '0', '2', ' ', '|', ' ', '6', '1', ' ', '6', '2', ' ', '6', '3'] := by
  decide +kernel

/-! ### Witnesses: data that meets each statement's hypotheses -/

theorem held_abc : Held (activeCtx .sha256 abc) where
  accumulator := ⟨_, rfl⟩
  counts := ⟨3, 24, rfl, rfl, by decide, by decide⟩
  valid := fun n hn => by
    obtain rfl : 3 = n := by simpa [activeCtx, abc] using hn
    decide +kernel

theorem held_empty : Held (activeCtx .sha256 []) where
  accumulator := ⟨_, rfl⟩
  counts := ⟨0, 0, rfl, rfl, by decide, by decide⟩
  valid := fun n hn => by
    obtain rfl : 0 = n := by simpa [activeCtx] using hn
    decide +kernel

theorem held_63 : Held (activeCtx .sha224 (as 63)) where
  accumulator := ⟨_, rfl⟩
  counts := ⟨63, 504, rfl, rfl, by decide, by decide⟩
  valid := fun n hn => by
    obtain rfl : 63 = n := by simpa [activeCtx, as] using hn
    decide +kernel

theorem represents_empty : Represents (activeCtx .sha256 []) .sha256 [] where
  cst := rfl
  var := rfl
  h := rfl
  blen := rfl
  tbits := rfl
  buf := by decide +kernel

theorem represents_abc : Represents (activeCtx .sha256 abc) .sha256 abc where
  cst := rfl
  var := rfl
  h := rfl
  blen := rfl
  tbits := rfl
  buf := by decide +kernel

theorem inv_active : Inv (activeCtx .sha256 abc) where
  active := fun _ => held_abc
  uninit := fun h => by cases h
  done := fun h => by cases h
  faulted := fun h => by cases h
  code := by decide
  notInitialized := fun h => by cases h
  finalized := fun h => by cases h
  inTransit := fun h => absurd rfl h
  noneInTransit := by decide
  wholeDigests := by decide
  discards := by decide

theorem inv_reset : Inv State.reset where
  active := fun h => by cases h
  uninit := fun _ => ⟨⟨rfl, rfl, rfl, rfl⟩, rfl⟩
  done := fun h => by cases h
  faulted := fun h => by cases h
  code := by decide
  notInitialized := fun h => by cases h
  finalized := fun h => by cases h
  inTransit := fun h => absurd rfl h
  noneInTransit := by decide
  wholeDigests := by decide
  discards := by decide

theorem inv_done : Inv doneCtx where
  active := fun h => by cases h
  uninit := fun h => by cases h
  done := fun _ => ⟨rfl, rfl, rfl, rfl⟩
  faulted := fun h => by cases h
  code := by decide
  notInitialized := fun h => by cases h
  finalized := fun h => by cases h
  inTransit := fun h => absurd rfl h
  noneInTransit := by decide
  wholeDigests := by decide
  discards := by decide

theorem inv_fault : Inv faultCtx where
  active := fun h => by cases h
  uninit := fun h => by cases h
  done := fun h => by cases h
  faulted := fun _ => .inr ⟨rfl, rfl, rfl, rfl⟩
  code := by decide
  notInitialized := fun h => by cases h
  finalized := fun _ => ⟨rfl, rfl, rfl, rfl⟩
  inTransit := fun h => absurd rfl h
  noneInTransit := by decide
  wholeDigests := by decide
  discards := by decide

theorem inv_inTransit : Inv { doneCtx with dout := as 32 } where
  active := fun h => by cases h
  uninit := fun h => by cases h
  done := fun _ => ⟨rfl, rfl, rfl, rfl⟩
  faulted := fun h => by cases h
  code := by decide
  notInitialized := fun h => by cases h
  finalized := fun h => by cases h
  inTransit := fun _ => ⟨rfl, rfl⟩
  noneInTransit := by decide
  wholeDigests := by decide
  discards := by decide

theorem witness_CommandPatternsDifferInOp :
    decodeWord 0x00000011#32 = some (.init .sha224) ∧ decodeWord 0xffffff02#32 = some (.update 0xffffff) ∧
      decodeWord 0x00ff0703#32 = some (.final 7 0xff) := by decide

theorem witness_DecodeOfEncodeGivesTheCommandBack :
    (Instr.init .sha224).wellFormed = true ∧ (Instr.update 0 []).wellFormed = true ∧
      (Instr.update 3 abc).wellFormed = true ∧ (Instr.final 7 0xff).wellFormed = true := by decide

theorem witness_DecodedItemsAreTheEncoding :
    decode [.word 0x00000302#32, .byte 0x61, .byte 0x62, .byte 0x63, .word 0x3#32] =
      .instr (.update 3 abc) [.word 0x3#32] := by decide

theorem witness_StepRunsTheDecodedCommand :
    (Instr.update 3 abc).wellFormed = true ∧
      ({ activeCtx .sha256 [] with cmd := encode (.update 3 abc) ++ [.word 0x3#32] } : State).dout = [] := by decide

theorem witness_IllegalWordRaisesIllegalCommand :
    decodeWord 0x00000021#32 = none ∧ State.reset.cst ≠ .fault ∧ faultCtx.cst = .fault ∧ faultCtx.dout = [] := by decide

/-- A state for each clause: waiting with a host action and without one, and a payload cut short. -/
theorem witness_UpdateWaitsForItsPayload :
    decodeWord 0x00000302#32 = some (.update 3) ∧ [0x61#8, 0x62#8].length < (3#24).toNat ∧
    (∃ s : State, s.dout = [] ∧ s.host = [.readStatus] ∧ s.cmd = .word 0x302#32 :: [0x61#8, 0x62#8].map .byte) ∧
    (∃ s : State, s.dout = [] ∧ s.host = [] ∧ s.cmd = .word 0x302#32 :: [0x61#8, 0x62#8].map .byte) ∧
    (∃ s : State, s.dout = [] ∧ s.cmd = .word 0x302#32 :: ([0x61#8, 0x62#8].map .byte ++ .word 0x3#32 :: []) ∧
      step s = .refused .payloadLength) :=
  ⟨by decide, by decide,
    ⟨{ State.reset with cmd := [.word 0x302#32, .byte 0x61, .byte 0x62], host := [.readStatus] }, rfl, rfl, rfl⟩,
    ⟨{ State.reset with cmd := [.word 0x302#32, .byte 0x61, .byte 0x62] }, rfl, rfl, rfl⟩,
    ⟨{ State.reset with cmd := [.word 0x302#32, .byte 0x61, .byte 0x62, .word 0x3#32] }, rfl, rfl, rfl⟩⟩

theorem witness_StrayPayloadByteIsRefusedOrDiscarded :
    ({ State.reset with cmd := [.byte 0] } : State).dout = [] ∧ State.reset.discarding = false ∧
      faultCtx.discarding = true := by decide

theorem witness_DigestInTransitBlocksTheEngine :
    ({ doneCtx with dout := as 32 } : State).dout ≠ [] ∧ doneCtx.host = [] := by decide

theorem witness_HostTakesTheDigestInOrder :
    as 2 ≠ [] ∧ 1 < (as 2).length ∧
    ({ doneCtx with dout := as 2, host := [.takeDigestByte, .takeDigestByte, .readStatus] } : State).host =
      List.replicate (as 2).length .takeDigestByte ++ [.readStatus] ∧
    ({ doneCtx with dout := as 2, host := [.takeDigestByte, .assertReset] } : State).host =
      List.replicate 1 .takeDigestByte ++ [.assertReset] := by decide

theorem witness_SentCommandIsRun :
    ({ activeCtx .sha256 [] with host := Assembler.sendCommand (.update 3 abc) ++ [.readStatus] } : State).cmd = [] ∧
      (Instr.update 3 abc).wellFormed = true ∧ (activeCtx .sha256 []).dout = [] := by decide

/-- A FINAL, a digest byte and a last one taken, and a reset with a digest in transit. -/
theorem witness_OnlyFinalEmitsDigestBytes :
    (∃ t, step { activeCtx .sha256 abc with cmd := [.word 0x3#32] } = .next t ∧ t.dout ≠ []) ∧
    (∃ t, step { doneCtx with dout := as 2, host := [.takeDigestByte] } = .next t ∧ t.dout ≠ as 2) ∧
    (∃ t, step { doneCtx with dout := as 1, host := [.takeDigestByte] } = .next t ∧ t.dout ≠ as 1) ∧
    (∃ t, step { doneCtx with dout := as 2, host := [.assertReset] } = .next t ∧ t.dout ≠ as 2) := by
  refine ⟨?_, ?_, ?_, ?_⟩
  · obtain ⟨t, ht, hl⟩ := next_of_after (f := fun t => t.dout.length) (v := 32)
      (r := step { activeCtx .sha256 abc with cmd := [.word 0x3#32] }) (by decide +kernel)
    exact ⟨t, ht, fun h => by simp [h] at hl⟩
  · exact ⟨_, rfl, by decide⟩
  · exact ⟨_, rfl, by decide⟩
  · exact ⟨_, rfl, by decide⟩

theorem witness_StatusReadHasNoSideEffect : State.reset.dout = [] := rfl

theorem witness_StatusReadDuringFinalIsTheOneBefore :
    (activeCtx .sha256 abc).cst = .active ∧ (activeCtx .sha256 abc).fcode = .none ∧
      (activeCtx .sha256 abc).dout = [] ∧ ∃ t, exec (.final 0 0) (activeCtx .sha256 abc) = .next t := by
  obtain ⟨hv, h⟩ := finalizeContext_held 0 0 held_abc
  exact ⟨rfl, rfl, rfl, _, by rw [execFinal_active rfl, h]; rfl⟩

theorem witness_InitSetsUpTheContext :
    State.reset.cst ≠ .fault ∧ (activeCtx .sha256 abc).cst ≠ .fault ∧ doneCtx.cst ≠ .fault ∧ faultCtx.cst = .fault ∧
      ∃ t, exec (.init .sha224) State.reset = .next t := ⟨by decide, by decide, by decide, rfl, _, rfl⟩

theorem witness_InitForgetsTheContext :
    State.reset.fcode = (activeCtx .sha256 abc).fcode ∧
      State.reset.subbyteAlign = (activeCtx .sha256 abc).subbyteAlign ∧
      (∃ t, exec (.init .sha224) State.reset = .next t) ∧
      (∃ t, exec (.init .sha224) (activeCtx .sha256 abc) = .next t) := ⟨rfl, rfl, ⟨_, rfl⟩, ⟨_, rfl⟩⟩

theorem witness_AbsorbedByteGoesToTheBuffer :
    (activeCtx .sha256 []).blen = some 0 ∧ (activeCtx .sha256 (as 62)).blen = some 62 := by decide

theorem witness_FullBufferIsCompressed :
    (activeCtx .sha256 (as 63)).h = some iv256 ∧ (activeCtx .sha256 (as 63)).blen = some 63 ∧
      (∀ i : Fin 64, i.val < 63 → (activeCtx .sha256 (as 63)).buf[i] = some (Vector.replicate 64 0x61#8)[i]) ∧
      (Vector.replicate 64 0x61#8)[63] = 0x61#8 := by decide +kernel

theorem witness_UpdateAbsorbsItsPayload :
    (activeCtx .sha224 (as 63)).cst = .active ∧ Held (activeCtx .sha224 (as 63)) ∧
      (activeCtx .sha224 (as 63)).h = some iv224 ∧ (activeCtx .sha224 (as 63)).blen = some 63 ∧
      (activeCtx .sha224 (as 63)).tbits = some 504 ∧ abc.length = (3#24).toNat :=
  ⟨rfl, held_63, rfl, rfl, rfl, rfl⟩

theorem witness_UpdateOfAnotherLengthIsRefused : abc.length ≠ (4#24).toNat ∧ abc.length ≠ (2#24).toNat := by decide

theorem witness_TwoTierAbsorptionAgrees :
    Held (activeCtx .sha224 (as 63)) ∧ ∃ t, absorbBytes abc (activeCtx .sha224 (as 63)) = .ok t := by
  obtain ⟨hv, n, tb, a, -⟩ := held_63.absorbing
  obtain ⟨t, -, -, h, -⟩ := absorbBytes_absorbing abc a
  exact ⟨held_63, t, h⟩

theorem witness_ChunkingDoesNotMatter :
    (activeCtx .sha256 abc).cst = .active ∧ Held (activeCtx .sha256 abc) ∧
      (∀ m ∈ [[0x61#8], [], [0x62#8, 0x63#8]], m.length ≤ Config.maxChunk) ∧
      ([[0x61#8], [], [0x62#8, 0x63#8]] : List (List Byte)).flatten = [abc].flatten :=
  ⟨rfl, held_abc, by decide, by decide⟩

theorem witness_SentinelBits : 0 < 8 ∧ 7 < 8 := by decide

theorem witness_RotrMovesEveryBit : 0 < 31 ∧ 31 < 32 ∧ 0 < 1 ∧ 1 < 32 := by decide

theorem witness_ChooseAndMajorityBits : 0 < 32 ∧ 31 < 32 := by decide

theorem witness_ScheduleFollowsItsRecurrence : 0 < 16 ∧ 15 < 16 ∧ 16 ≤ 16 ∧ 63 < 64 := by decide

theorem witness_DigestSerializesTheAccumulator :
    7 < digestWords .sha256 ∧ 6 < digestWords .sha224 ∧ 7 < 8 ∧ 3 < 4 := by decide

theorem witness_InitRepresentsTheEmptyMessage : State.reset.cst ≠ .fault ∧ doneCtx.cst ≠ .fault := by decide

theorem witness_FinalPadsCompressesAndEmits :
    Held (activeCtx .sha224 (as 63)) ∧ Held (activeCtx .sha256 []) ∧ (activeCtx .sha256 []).cst = .active ∧
      (activeCtx .sha256 []).h = some iv256 ∧ (activeCtx .sha256 []).tbits = some 0 :=
  ⟨held_63, held_empty, rfl, rfl, rfl⟩

theorem witness_UnselectedBitsOfUbAreIgnored :
    ((activeCtx .sha256 abc).subbyteAlign = .low ∧ ∀ j < (3#3).toNat, (0x05#8).getLsbD j = (0xfd#8).getLsbD j) ∧
    (({ activeCtx .sha256 abc with subbyteAlign := .high } : State).subbyteAlign = .high ∧
      ∀ j < (3#3).toNat, (0xa0#8).getMsbD j = (0xbf#8).getMsbD j) := by decide

theorem held_55 : Held (activeCtx .sha256 (as 55)) where
  accumulator := ⟨_, rfl⟩
  counts := ⟨55, 440, rfl, rfl, by decide, by decide⟩
  valid := fun n hn => by
    obtain rfl : 55 = n := by simpa [activeCtx, as] using hn
    decide +kernel

theorem held_56 : Held (activeCtx .sha256 (as 56)) where
  accumulator := ⟨_, rfl⟩
  counts := ⟨56, 448, rfl, rfl, by decide, by decide⟩
  valid := fun n hn => by
    obtain rfl : 56 = n := by simpa [activeCtx, as] using hn
    decide +kernel

/-- The boundary: 55 bytes buffered end in one compression, 56 in two. -/
theorem witness_NumberOfCompressions :
    (State.reset.cst ≠ .fault ∧ ∀ m ∈ [abc, [], as 64], m.length ≤ Config.maxChunk) ∧
    (Held (activeCtx .sha256 (as 55)) ∧ (activeCtx .sha256 (as 55)).blen = some 55 ∧
      (activeCtx .sha256 (as 55)).cst = .active ∧ (activeCtx .sha256 (as 55)).h = some iv256 ∧
      (activeCtx .sha256 (as 55)).tbits = some 440) ∧
    (Held (activeCtx .sha256 (as 56)) ∧ (activeCtx .sha256 (as 56)).blen = some 56 ∧
      (activeCtx .sha256 (as 56)).cst = .active ∧ (activeCtx .sha256 (as 56)).h = some iv256 ∧
      (activeCtx .sha256 (as 56)).tbits = some 448) :=
  ⟨by decide, ⟨held_55, rfl, rfl, rfl, rfl⟩, ⟨held_56, rfl, rfl, rfl, rfl⟩⟩

theorem witness_UpdateAppendsToTheMessage :
    Represents (activeCtx .sha256 abc) .sha256 abc ∧ abc.length = (3#24).toNat := ⟨represents_abc, rfl⟩

theorem witness_FinalEmitsTheStandardDigest :
    Represents (activeCtx .sha256 abc) .sha256 abc ∧ Represents (activeCtx .sha256 []) .sha256 [] :=
  ⟨represents_abc, represents_empty⟩

theorem witness_HashOfChunksIsTheStandardDigest :
    State.reset.cst ≠ .fault ∧ ∀ m ∈ [abc, [], as 64], m.length ≤ Config.maxChunk := by decide

theorem witness_HostObservesTheDigestOfAHash : ∀ m ∈ [abc, [], as 64], m.length ≤ Config.maxChunk := by decide

theorem witness_UpdateAndFinalFaultOutsideActive :
    (∃ len p, Instr.update 0 [] = .update len p) ∧ (∃ n ub, Instr.final 0 0 = .final n ub) ∧
      (Instr.update 0 []).wellFormed = true ∧ (Instr.final 0 0).wellFormed = true ∧
      State.reset.cst = .uninit ∧ doneCtx.cst = .done := ⟨⟨_, _, rfl⟩, ⟨_, _, rfl⟩, rfl, rfl, rfl, rfl⟩

theorem witness_FaultedEngineDiscardsEveryTransaction :
    faultCtx.cst = .fault ∧ faultCtx.dout = [] ∧ (Instr.update 3 abc).wellFormed = true ∧
      decode [.word 0x102#32, .byte 0x78#8] = .instr (.update 1 [0x78]) [] ∧
      decode [.word 0x0#32, .byte 0x78#8] = .illegal 0x0 [.byte 0x78#8] := by decide

theorem witness_FaultsArePrecise :
    ∃ t, step { State.reset with cmd := [.word 0#32] } = .next t ∧ State.reset.cst ≠ .fault ∧ t.cst = .fault :=
  ⟨_, rfl, by decide, rfl⟩

theorem witness_OnlyResetLeavesFault :
    (∃ t, step { faultCtx with cmd := [.word 0x1#32] } = .next t ∧ t.cst = .fault) ∧
    (∃ t, step { faultCtx with host := [.assertReset] } = .next t ∧ t.cst = .uninit) :=
  ⟨⟨_, rfl, rfl⟩, ⟨_, rfl, rfl⟩⟩

/-- One state for each row of the table. -/
theorem witness_ContextStateFollowsTheTable :
    (Inv State.reset ∧ ∃ t, step State.reset = .next t) ∧
    (Inv State.reset ∧ (∃ t, step (State.reset.withFetchWord 32 0x21) = .next t) ∧
      (∃ t, step (State.reset.withFetchWord 32 0x11) = .next t) ∧
      (∃ t, step (State.reset.withFetchWord 32 0x2) = .next t)) ∧
    (Inv faultCtx ∧ (∃ t, step (faultCtx.withFetchWord 32 0x1) = .next t) ∧
      ∃ t, step { faultCtx with cmd := [.byte 0#8] } = .next t) ∧
    (Inv (activeCtx .sha256 abc) ∧ ∃ t, step ((activeCtx .sha256 abc).withFetchWord 32 0x3) = .next t) ∧
    (Inv doneCtx ∧ (∃ t, step (doneCtx.withFetchWord 32 0x3) = .next t) ∧
      ∃ t, step { doneCtx with host := [.assertReset] } = .next t) := by
  refine ⟨⟨inv_reset, _, rfl⟩, ⟨inv_reset, ⟨_, rfl⟩, ⟨_, rfl⟩, ⟨_, rfl⟩⟩,
    ⟨inv_fault, ⟨_, rfl⟩, ⟨_, rfl⟩⟩, ⟨inv_active, ?_⟩,
    ⟨inv_done, ⟨_, rfl⟩, ⟨_, rfl⟩⟩⟩
  obtain ⟨t, ht, -⟩ := next_of_after (f := fun t => t.dout.length) (v := 32)
    (r := step ((activeCtx .sha256 abc).withFetchWord 32 0x3)) (by decide +kernel)
  exact ⟨t, ht⟩

theorem witness_OnlyInitAndResetWriteTheVariant :
    (∃ t, step (State.reset.withFetchWord 32 0x11) = .next t ∧ t.var ≠ State.reset.var) ∧
    (∃ t, step { activeCtx .sha224 [] with host := [.assertReset] } = .next t ∧ t.var ≠ .sha224) :=
  ⟨⟨_, rfl, by decide⟩, ⟨_, rfl, by decide⟩⟩

theorem witness_AssertingResetRestoresResetValues :
    State.reset.dout = [] ∧ ({ doneCtx with dout := as 32 } : State).dout ≠ [] := by decide

theorem witness_EveryStepKeepsTheInvariant :
    (Inv { doneCtx with dout := as 32 } ∧ ∃ t, step { doneCtx with dout := as 32 } = .next t) ∧
    (Inv State.reset ∧ ∃ t, step State.reset = .next t) ∧
    (Inv faultCtx ∧ ∃ t, step { faultCtx with cmd := [.byte 0#8] } = .next t) :=
  ⟨⟨inv_inTransit, _, rfl⟩, ⟨inv_reset, _, rfl⟩, ⟨inv_fault, _, rfl⟩⟩

theorem witness_NoStepReadsAnUnspecifiedField : Inv (activeCtx .sha256 abc) ∧ Inv State.reset := ⟨inv_active, inv_reset⟩

theorem witness_OnlyHostErrorsStopAStep :
    Inv State.reset ∧ decode [.word 0x102#32, .word 0x3#32] = .payloadShort ∧
      decode [.byte 0#8] = .strayByte 0#8 [] := ⟨inv_reset, by decide, rfl⟩

theorem witness_CommandsLeaveTheHostSideAlone :
    (∃ t, exec (.init .sha256) State.reset = .next t) ∧ (∃ t, exec (.update 0 []) State.reset = .next t) ∧
      ∃ t, exec (.final 0 0) State.reset = .next t := ⟨⟨_, rfl⟩, ⟨_, rfl⟩, ⟨_, rfl⟩⟩

theorem witness_CommandsDependOnTheEngineAlone :
    SameEngine (activeCtx .sha256 abc) { activeCtx .sha256 abc with digests := [as 32], statusLog := [0x1#32] } ∧
      ∃ t, exec (.final 0 0) (activeCtx .sha256 abc) = .next t :=
  ⟨⟨rfl, rfl, rfl, rfl, rfl, rfl, rfl, rfl⟩, witness_StatusReadDuringFinalIsTheOneBefore.2.2.2⟩

/-- Two engines, of which the host has sent the second a command, on a platform that maps them. -/
def twoEngines : Platform where
  engineBase := some 0x40000000
  first := State.reset
  further := [State.reset.withFetchWord 32 0x11]

theorem witness_EnginesShareNoState :
    (∃ p', twoEngines.stepEngine 0 = some (.next p')) ∧ (∃ p', twoEngines.stepEngine 1 = some (.next p')) ∧
      0 ≠ 1 := ⟨⟨_, rfl⟩, ⟨_, rfl⟩, by decide⟩

theorem witness_LongUpdateSplitsTheData : abc.length ≤ Config.maxChunk := by decide

theorem witness_AssemblyOfDisassemblyGivesTheCommandBack :
    (Instr.init .sha256).wellFormed = true ∧ (Instr.update 3 abc).wellFormed = true ∧
      (Instr.final 0 0).wellFormed = true ∧ (Instr.final 7 0xff).wellFormed = true := by decide

theorem witness_OverlongPayloadIsRefused :
    Inv (activeCtx .sha256 abc) ∧ Inv State.reset ∧ Inv doneCtx ∧ Inv faultCtx ∧ abc.length = (3#24).toNat ∧
      State.reset.dout = [] ∧
      ({ State.reset with cmd := encode (.update 3 abc) ++ [.byte 0x64] } : State).cmd =
        encode (.update 3 abc) ++ .byte 0x64 :: [] :=
  ⟨inv_active, inv_reset, inv_done, inv_fault, rfl, rfl, rfl⟩

theorem witness_PlatformHasItsParameters :
    (∃ s', twoEngines.engines[1]? = some (State.reset.withFetchWord 32 0x11) ∧
      step (State.reset.withFetchWord 32 0x11) = .next s') ∧
    0 < (Config.Parameters.mk .high none 0).numEngines ∧ 2 < (Config.Parameters.mk .low (some 0) 2).numEngines :=
  ⟨⟨_, rfl, rfl⟩, by decide, by decide⟩

end Sys2Proof.Tests
end

section
/-! ### Words and their bytes (00_scope.md R18) -/

namespace Sys2Proof.Machine

/-- `be32` writes its four bytes one behind the other. -/
theorem be32_eq_append (b0 b1 b2 b3 : Byte) : be32 b0 b1 b2 b3 = b0 ++ b1 ++ b2 ++ b3 := by
  refine BitVec.eq_of_getLsbD_eq fun i hi => ?_
  simp only [be32, BitVec.getLsbD_or, BitVec.getLsbD_shiftLeft, BitVec.getLsbD_setWidth, BitVec.getLsbD_append]
  grind

theorem toNat_append_byte {n : Nat} (x : BitVec n) (b : Byte) : (x ++ b).toNat = x.toNat * 2 ^ 8 + b.toNat := by
  rw [BitVec.toNat_append, ← Nat.shiftLeft_add_eq_or_of_lt b.isLt, Nat.shiftLeft_eq]

theorem be32_toNat (b0 b1 b2 b3 : Byte) : (be32 b0 b1 b2 b3).toNat =
    b0.toNat * 2 ^ 24 + b1.toNat * 2 ^ 16 + b2.toNat * 2 ^ 8 + b3.toNat := by
  simp only [be32_eq_append, toNat_append_byte]
  omega

theorem ser32_be32 (b0 b1 b2 b3 : Byte) : ser32 (be32 b0 b1 b2 b3) = [b0, b1, b2, b3] := by
  have hbyte (k : Nat) (b : Byte) (hb : (be32 b0 b1 b2 b3).toNat / 2 ^ k % 2 ^ 8 = b.toNat) :
      (be32 b0 b1 b2 b3).extractLsb' k 8 = b := by
    rw [← BitVec.toNat_inj, BitVec.extractLsb'_toNat, Nat.shiftRight_eq_div_pow, hb]
  rw [ser32, hbyte 24 b0, hbyte 16 b1, hbyte 8 b2, hbyte 0 b3] <;> rw [be32_toNat] <;> omega

theorem be32_extractLsb' (w : Word) :
    be32 (w.extractLsb' 24 8) (w.extractLsb' 16 8) (w.extractLsb' 8 8) (w.extractLsb' 0 8) = w := by
  rw [← BitVec.toNat_inj, be32_toNat]
  simp only [BitVec.extractLsb'_toNat, Nat.shiftRight_eq_div_pow]
  omega

end Sys2Proof.Machine
end

section
/-! ### Platforms (00_scope.md R13) -/

namespace Sys2Proof.Machine.Platform

theorem numEngines_pos (p : Platform) : 1 ≤ p.numEngines := Nat.le_add_left 1 p.further.length

/-- After reset the first engine is like the further ones. -/
theorem reset_engines (c : Config.Parameters) : (Platform.reset c).engines =
    List.replicate c.numEngines { State.reset with subbyteAlign := c.subbyteAlign } := rfl

theorem stepEngine_next {p : Platform} {k : Nat} {s s' : State} (hs : p.engines[k]? = some s)
    (h : step s = .next s') : p.stepEngine k = some (.next (p.setEngine k s')) := by
  simp [stepEngine, hs, h]

theorem setEngine_withBase (p : Platform) (base : Option Nat) (k : Nat) (s : State) :
    setEngine { p with engineBase := base } k s = { p.setEngine k s with engineBase := base } := by
  cases k <;> rfl

end Sys2Proof.Machine.Platform
end

section
/-! ### The blocks of a byte string, and its bytes after them -/

namespace Sys2Proof.Machine.Reference

/-- The bytes of a byte string after its whole blocks. -/
def remainder (m : List Byte) : List Byte := m.drop (64 * (m.length / 64))

@[simp] theorem remainder_length (m : List Byte) : (remainder m).length = m.length % 64 := by
  rw [remainder, List.length_drop]
  omega

theorem remainder_of_short {m : List Byte} (h : m.length < 64) : remainder m = m := by
  simp [remainder, Nat.div_eq_of_lt h]

theorem remainder_of_length_64 {m : List Byte} (h : m.length = 64) : remainder m = [] :=
  List.eq_nil_of_length_eq_zero (by rw [remainder_length, h])

theorem take_append_remainder (m : List Byte) : m.take (64 * (m.length / 64)) ++ remainder m = m :=
  List.take_append_drop _ m

theorem remainder_getElem? (m : List Byte) (i : Nat) : (remainder m)[i]? =
    if i < m.length % 64 then some (m.getD (64 * (m.length / 64) + i) 0) else none := by
  split
  · rw [remainder, List.getElem?_drop, List.getD_eq_getElem?_getD, List.getElem?_eq_getElem (by omega),
      Option.getD_some]
  · exact List.getElem?_eq_none (by rw [remainder_length]; omega)

/-- What follows the whole blocks of `m ++ q` depends on `m` through its remainder alone. -/
theorem remainder_append (m q : List Byte) : remainder (m ++ q) = remainder (remainder m ++ q) := by
  have hdrop : remainder m ++ q = (m ++ q).drop (64 * (m.length / 64)) :=
    (List.drop_append_of_le_length (by omega)).symm
  rw [hdrop, remainder, remainder, List.drop_drop, List.length_drop, List.length_append]
  congr 1
  omega

theorem blocks_of_short {m : List Byte} (h : m.length < 64) : blocks m = [] := by
  simp [blocks, Nat.div_eq_of_lt h]

theorem blocks_of_length_64 {m : List Byte} (h : m.length = 64) : blocks m = [blockAt m 0] := by
  simp [blocks, h]

theorem blocks_of_length_128 {m : List Byte} (h : m.length = 128) : blocks m = [blockAt m 0, blockAt m 1] := by
  simp [blocks, h, List.range_succ]

theorem blockAt_getElem? {m : List Byte} {j i : Nat} (hi : i < 64) (h : 64 * j + i < m.length) :
    m[64 * j + i]? = some (blockAt m j)[i] := by
  simp [blockAt, h]

theorem blockAt_append_left {p : List Byte} (q : List Byte) {j : Nat} (h : j < p.length / 64) :
    blockAt (p ++ q) j = blockAt p j := by
  refine Vector.ext fun i hi => ?_
  simp only [blockAt, Vector.getElem_ofFn]
  rw [List.getD_append _ _ _ _ (by omega)]

theorem blockAt_append_right {p : List Byte} (q : List Byte) (j : Nat) (h : p.length % 64 = 0) :
    blockAt (p ++ q) (p.length / 64 + j) = blockAt q j := by
  refine Vector.ext fun i hi => ?_
  simp only [blockAt, Vector.getElem_ofFn]
  rw [List.getD_append_right _ _ _ _ (by omega)]
  congr 1
  omega

/-- Behind whole blocks, blocks are cut as from the start. -/
theorem blocks_append_of_aligned {p : List Byte} (q : List Byte) (h : p.length % 64 = 0) :
    blocks (p ++ q) = blocks p ++ blocks q := by
  have hlen : (p ++ q).length / 64 = p.length / 64 + q.length / 64 := by
    rw [List.length_append]
    omega
  have hp : (List.range (p.length / 64)).map (blockAt (p ++ q)) = blocks p :=
    List.map_congr_left fun j hj => blockAt_append_left q (List.mem_range.mp hj)
  have hq : ((List.range (q.length / 64)).map (p.length / 64 + ·)).map (blockAt (p ++ q)) = blocks q := by
    rw [List.map_map]
    exact List.map_congr_left fun j _ => blockAt_append_right q j h
  rw [blocks, hlen, List.range_add, List.map_append, hp, hq]

/-- Blocks once cut stay; the next ones begin with the remainder. -/
theorem blocks_append (m q : List Byte) : blocks (m ++ q) = blocks m ++ blocks (remainder m ++ q) := by
  have hlen : (m.take (64 * (m.length / 64))).length % 64 = 0 := by
    rw [List.length_take]
    omega
  have hm : blocks (m.take (64 * (m.length / 64))) = blocks m := by
    conv_rhs => rw [← take_append_remainder m, blocks_append_of_aligned _ hlen,
      blocks_of_short (m := remainder m) (by rw [remainder_length]; omega), List.append_nil]
  conv_lhs => rw [← take_append_remainder m, List.append_assoc, blocks_append_of_aligned _ hlen, hm]

end Sys2Proof.Machine.Reference
end

section
/-! ### Absorbing bytes (40_init_update.md R112, R113) -/

namespace Sys2Proof.Safety

open Sys2Proof.Machine Sys2Proof.Machine.Reference

/-- The buffer holds the bytes `p` from its start on, and no other byte. -/
def HoldsBytes (buf : Vector (Option Byte) 64) (p : List Byte) : Prop :=
  ∀ (i : Nat) (_ : i < 64), buf[i] = p[i]?

theorem holdsBytes_emptyBuf : HoldsBytes emptyBuf [] := fun i hi => by simp

theorem HoldsBytes.set {buf : Vector (Option Byte) 64} {p : List Byte} (hb : HoldsBytes buf p) (hp : p.length < 64)
    (b : Byte) : HoldsBytes (buf.set p.length (some b)) (p ++ [b]) := by
  intro i hi
  have hi' := hb i hi
  grind

/-- The context fields `H`, `BUF` and `BLEN` hold what absorbing the bytes `m` from the accumulator `h0` and an empty
buffer leaves (R113): `Represents` without the bit count, and from any accumulator. -/
structure Absorbed (h0 : Vector Word 8) (m : List Byte) (s : State) : Prop where
  h : s.h = some ((blocks m).foldl compress h0)
  blen : s.blen = some ⟨m.length % 64, Nat.mod_lt _ (by decide)⟩
  buf : HoldsBytes s.buf (remainder m)

theorem represents_iff {s : State} {v : Variant} {m : List Byte} : Represents s v m ↔
    s.cst = .active ∧ s.var = v ∧ s.tbits = some (BitVec.ofNat 64 (8 * m.length)) ∧
      Absorbed (initialVector v) m s := by
  constructor
  · intro r
    exact ⟨r.cst, r.var, r.tbits, r.h, r.blen, fun i hi => (r.buf ⟨i, hi⟩).trans (remainder_getElem? m i).symm⟩
  · rintro ⟨hc, hv, ht, a⟩
    exact ⟨hc, hv, a.h, a.blen, ht, fun i => (a.buf i.val i.isLt).trans (remainder_getElem? m i.val)⟩

/-- The byte finds room, or it fills the buffer, whose 64 bytes are then the next block. -/
theorem absorbByte_absorbed {h0 : Vector Word 8} {m : List Byte} {s : State} (b : Byte) (a : Absorbed h0 m s) :
    ∃ t, absorbByte b s = .ok t ∧ Absorbed h0 (m ++ [b]) t := by
  have hlt : m.length % 64 < 64 := Nat.mod_lt _ (by decide)
  have hset : HoldsBytes (s.buf.set (m.length % 64) (some b)) (remainder m ++ [b]) := by
    simpa only [remainder_length] using a.buf.set (by rwa [remainder_length]) b
  have hlen : (remainder m ++ [b]).length = m.length % 64 + 1 := by simp
  by_cases hroom : m.length % 64 + 1 < 64
  · refine ⟨{ s with buf := s.buf.set (m.length % 64) (some b), blen := some ⟨m.length % 64 + 1, hroom⟩ },
      by simp [absorbByte, a.blen, hroom], ?_, ?_, ?_⟩
    · rw [blocks_append, blocks_of_short (m := remainder m ++ [b]) (by omega), List.append_nil]
      exact a.h
    · simp only [List.length_append, List.length_singleton, Option.some_inj, Fin.ext_iff]
      omega
    · rw [remainder_append, remainder_of_short (m := remainder m ++ [b]) (by omega)]
      exact hset
  · have hfull : (remainder m ++ [b]).length = 64 := by omega
    have hblock : fullBlock (s.buf.set (m.length % 64) (some b)) = some (blockAt (remainder m ++ [b]) 0) :=
      fullBlock_eq_some fun i hi => by
        rw [hset i hi, ← blockAt_getElem? hi (by omega), Nat.mul_zero, Nat.zero_add]
    refine ⟨{ s with h := some (compress ((blocks m).foldl compress h0) (blockAt (remainder m ++ [b]) 0)),
                     buf := emptyBuf, blen := some 0 },
      by simp [absorbByte, a.blen, hroom, compressFullBuffer, a.h, hblock], ?_, ?_, ?_⟩
    · rw [blocks_append, blocks_of_length_64 hfull, List.foldl_append]
      rfl
    · simp only [List.length_append, List.length_singleton, Option.some_inj, Fin.ext_iff, Fin.val_zero]
      omega
    · rw [remainder_append, remainder_of_length_64 hfull]
      exact holdsBytes_emptyBuf

theorem absorbBytes_absorbed {h0 : Vector Word 8} {m : List Byte} {s : State} (p : List Byte)
    (a : Absorbed h0 m s) : ∃ t, absorbBytes p s = .ok t ∧ Absorbed h0 (m ++ p) t := by
  induction p generalizing m s with
  | nil => exact ⟨s, rfl, by simpa using a⟩
  | cons b bs ih =>
    obtain ⟨s', hs', a'⟩ := absorbByte_absorbed b a
    obtain ⟨t, ht, a''⟩ := ih a'
    exact ⟨t, by simp [hs', ht], by simpa using a''⟩

theorem absorbChunk_absorbed {h0 : Vector Word 8} {m : List Byte} {s : State} {tb : BitVec 64} (len : BitVec 24)
    (p : List Byte) (a : Absorbed h0 m s) (ht : s.tbits = some tb) :
    ∃ t, absorbChunk len p s = .ok t ∧ Absorbed h0 (m ++ p) t ∧
      t.tbits = some (tb + BitVec.ofNat 64 (8 * len.toNat)) := by
  obtain ⟨s', hs', a'⟩ := absorbBytes_absorbed p a
  have ht' : s'.tbits = some tb := by rw [absorbBytes_frame hs']; exact ht
  exact ⟨{ s' with tbits := some (tb + BitVec.ofNat 64 (8 * len.toNat)) },
    by rw [absorbChunk, hs', except_bind_ok, countBytes_some len.toNat ht'], ⟨a'.h, a'.blen, a'.buf⟩, rfl⟩

end Sys2Proof.Safety
end

section
/-! ### FINAL's padding (42_finalize.md R162 to R165) -/

namespace Sys2Proof.Machine.Reference

/-- What FINAL puts behind `r` buffered bytes: the sentinel byte, zero bytes and the length (R162, R164, R165). -/
def padding (r : Nat) (x : Byte) (lbit : BitVec 64) : List Byte :=
  x :: (List.replicate (if r < 56 then 55 - r else 119 - r) 0#8 ++ (ser64 lbit).toList)

theorem paddedEnd_eq_append (p : List Byte) (x : Byte) (lbit : BitVec 64) :
    paddedEnd p x lbit = p ++ padding p.length x lbit := rfl

theorem paddedEnd_length_64 {p : List Byte} (x : Byte) (lbit : BitVec 64) (h : p.length < 56) :
    (paddedEnd p x lbit).length = 64 := by
  grind [paddedEnd]

theorem paddedEnd_length_128 {p : List Byte} (x : Byte) (lbit : BitVec 64) (h : 56 ≤ p.length)
    (hp : p.length < 64) : (paddedEnd p x lbit).length = 128 := by
  grind [paddedEnd]

/-- Every byte of the padded end; `e` is where the length begins. -/
theorem paddedEnd_getElem? {p : List Byte} {x : Byte} {lbit : BitVec 64} (e i : Nat)
    (he : e = if p.length < 56 then 56 else 120) (hp : p.length < 64) :
    (paddedEnd p x lbit)[i]? = if i ≤ p.length then (p ++ [x])[i]? else
      if i < e then some 0#8 else (ser64 lbit).toList[i - e]? := by
  grind [paddedEnd]

end Sys2Proof.Machine.Reference

namespace Sys2Proof.Safety

open Sys2Proof.Machine Sys2Proof.Machine.Reference

/-- FINAL compresses the blocks of the padded end: one when the length fits behind the sentinel, else two (R164). -/
theorem padAndCompress_eq (h : Vector Word 8) {buf : Vector (Option Byte) 64} {p : List Byte} {n : Fin 64}
    (x : Byte) (lbit : BitVec 64) (hb : HoldsBytes buf p) (hn : n.val = p.length) :
    padAndCompress h buf n x lbit = .ok ((blocks (paddedEnd p x lbit)).foldl compress h) := by
  have hp : p.length < 64 := hn ▸ n.isLt
  have hset := hb.set hp x
  by_cases hfit : p.length < 56
  · have hlen := paddedEnd_length_64 x lbit hfit
    have hused : ¬ p.length + 1 > 56 := by omega
    have hblock : fullBlock (putLength (zeroFill (buf.set p.length (some x)) (p.length + 1) 55) lbit) =
        some (blockAt (paddedEnd p x lbit) 0) := fullBlock_eq_some fun i hi => by
      rw [← blockAt_getElem? hi (by omega), paddedEnd_getElem? 56 _ (by simp [hfit]) hp, putLength_get,
        zeroFill_get, hset i hi]
      grind
    simp [padAndCompress, hn, hused, compressPadded, hblock, blocks_of_length_64 hlen]
  · have hlen := paddedEnd_length_128 x lbit (Nat.not_lt.mp hfit) hp
    have hused : p.length + 1 > 56 := by omega
    have hfirst : fullBlock (zeroFill (buf.set p.length (some x)) (p.length + 1) 63) =
        some (blockAt (paddedEnd p x lbit) 0) := fullBlock_eq_some fun i hi => by
      rw [← blockAt_getElem? hi (by omega), paddedEnd_getElem? 120 _ (by simp [hfit]) hp, zeroFill_get, hset i hi]
      grind
    have hsecond : fullBlock (putLength (zeroFill
        (zeroFill (buf.set p.length (some x)) (p.length + 1) 63) 0 55) lbit) =
        some (blockAt (paddedEnd p x lbit) 1) := fullBlock_eq_some fun i hi => by
      rw [← blockAt_getElem? hi (by omega), paddedEnd_getElem? 120 _ (by simp [hfit]) hp, putLength_get,
        zeroFill_get]
      grind
    simp [padAndCompress, hn, hused, compressPadded, hfirst, hsecond, blocks_of_length_128 hlen]

theorem finalizeContext_absorbed {h0 : Vector Word 8} {m : List Byte} {s : State} {tb : BitVec 64} (n : BitVec 3)
    (ub : Byte) (a : Absorbed h0 m s) (ht : s.tbits = some tb) :
    finalizeContext n ub s = .ok { clearContext (sendDigest (digestBytes s.var
      ((blocks (paddedEnd (remainder m) (sentinel s.subbyteAlign n ub) (lengthValue tb n))).foldl compress
        ((blocks m).foldl compress h0))) s) with cst := .done } :=
  finalizeContext_of_padded ht a.blen a.h (padAndCompress_eq _ _ _ a.buf (remainder_length m).symm)

end Sys2Proof.Safety
end

section
/-! ### The standard's padding, bit by bit (42_finalize.md R161 to R163, R169) -/

namespace Sys2Proof.Machine

theorem extraBits_getMsbD_of_le (align : SubbyteAlign) {n : BitVec 3} (ub : Byte) {j : Nat} (hj : n.toNat ≤ j) :
    (extraBits align n ub).getMsbD j = false := by
  by_cases hn : n = 0
  · simp [extraBits, hn]
  · simp only [extraBits, if_neg hn]
    cases align <;> grind [BitVec.getMsbD]

theorem sentinel_getMsbD (align : SubbyteAlign) (n : BitVec 3) (ub : Byte) {j : Nat} (hj : j < 8) :
    (sentinel align n ub).getMsbD j = ((extraBits align n ub).getMsbD j || decide (j = n.toNat)) := by
  have htop : ∀ k < 8, (0x80#8).getMsbD k = decide (k = 0) := by decide
  rw [sentinel, BitVec.getMsbD_or, BitVec.getMsbD_ushiftRight, htop (j - n.toNat) (by omega)]
  grind

theorem lengthValue_ofNat (k : Nat) (n : BitVec 3) :
    lengthValue (BitVec.ofNat 64 k) n = BitVec.ofNat 64 (k + n.toNat) := by
  rw [lengthValue, BitVec.ofNat_add, BitVec.ofNat_toNat]

end Sys2Proof.Machine

namespace Sys2Proof.Machine.Reference

@[simp] theorem byteBits_length (b : Byte) : (byteBits b).length = 8 := by simp [byteBits]

theorem byteBits_getElem? (b : Byte) {i : Nat} (h : i < 8) : (byteBits b)[i]? = some (b.getMsbD i) := by
  simp [byteBits, h]

@[simp] theorem messageBits_cons (b : Byte) (m : List Byte) : messageBits (b :: m) = byteBits b ++ messageBits m :=
  rfl

@[simp] theorem messageBits_append (p q : List Byte) : messageBits (p ++ q) = messageBits p ++ messageBits q :=
  List.flatMap_append

@[simp] theorem messageBits_length (m : List Byte) : (messageBits m).length = 8 * m.length := by
  induction m with
  | nil => rfl
  | cons b bs ih =>
    simp only [messageBits_cons, List.length_append, byteBits_length, ih, List.length_cons]
    omega

theorem messageBits_getElem? {m : List Byte} {k j : Nat} (hk : k < m.length) (hj : j < 8) :
    (messageBits m)[8 * k + j]? = some (m[k].getMsbD j) := by
  induction m generalizing k with
  | nil => simp at hk
  | cons b bs ih =>
    cases k with
    | zero =>
      rw [messageBits_cons, List.getElem?_append_left (by simp; omega)]
      simp [byteBits_getElem? b hj]
    | succ k =>
      have hidx : 8 * (k + 1) + j - 8 = 8 * k + j := by omega
      rw [messageBits_cons, List.getElem?_append_right (by simp; omega), byteBits_length, hidx,
        ih (k := k) (by simpa using hk), List.getElem_cons_succ]

theorem byteAt_messageBits {m : List Byte} {k : Nat} (hk : k < m.length) : byteAt (messageBits m) k = m[k] := by
  refine BitVec.eq_of_getLsbD_eq fun i hi => ?_
  rw [byteAt, BitVec.getLsbD_ofFnLE, dif_pos hi, List.getD_eq_getElem?_getD, messageBits_getElem? hk (by omega)]
  grind [BitVec.getMsbD]

/-- Reading a byte string's bits as bytes gives it back. -/
theorem bitsToBytes_messageBits (m : List Byte) : bitsToBytes (messageBits m) = m := by
  refine List.ext_getElem (by simp [bitsToBytes]) fun k hk hk' => ?_
  simp [bitsToBytes, byteAt_messageBits hk']

theorem messageBits_zeros (z : Nat) : messageBits (List.replicate z 0#8) = List.replicate (8 * z) false := by
  induction z with
  | zero => rfl
  | succ z ih =>
    rw [List.replicate_succ, messageBits_cons, ih, Nat.mul_succ, Nat.add_comm, List.replicate_add]
    rfl

/-- The length field of the padding is `ser64` of the length (R165). -/
theorem messageBits_ser64 (len : Nat) : messageBits (ser64 (BitVec.ofNat 64 len)).toList = lengthBits len := by
  refine List.ext_getElem (by simp [lengthBits]) fun i hi hi' => ?_
  have h64 : i < 64 := by simpa using hi
  have hbit := messageBits_getElem? (m := (ser64 (BitVec.ofNat 64 len)).toList) (k := i / 8) (j := i % 8)
    (by simp; omega) (by omega)
  rw [Nat.div_add_mod, List.getElem?_eq_getElem hi, Option.some_inj, Vector.getElem_toList,
    ser64_get _ _ (by omega)] at hbit
  simp only [hbit, lengthBits, List.getElem_map, List.getElem_range, BitVec.getMsbD, BitVec.getLsbD_extractLsb']
  grind

@[simp] theorem extraBitString_length (align : SubbyteAlign) (n : BitVec 3) (ub : Byte) :
    (extraBitString align n ub).length = n.toNat := by
  have hn := n.isLt
  rw [extraBitString, List.length_take, byteBits_length]
  omega

/-- The sentinel byte is the extra bits, a 1, and zeros (R162). -/
theorem byteBits_sentinel (align : SubbyteAlign) (n : BitVec 3) (ub : Byte) :
    byteBits (sentinel align n ub) = extraBitString align n ub ++ true :: List.replicate (7 - n.toNat) false := by
  have hn := n.isLt
  refine List.ext_getElem (by simp; omega) fun i hi hi' => ?_
  have hzero := extraBits_getMsbD_of_le align (n := n) ub (j := i)
  have hbit := sentinel_getMsbD align n ub (j := i) (by simpa using hi)
  grind [byteBits, extraBitString]

/-- The engine's padding is the standard's: behind the message's bytes, `padding` is the extra bits and what the
standard appends to them. -/
theorem padBits_eq_messageBits (m : List Byte) (align : SubbyteAlign) (n : BitVec 3) (ub : Byte) :
    padBits (messageBits m ++ extraBitString align n ub) =
      messageBits (m ++ padding (m.length % 64) (sentinel align n ub)
        (lengthValue (BitVec.ofNat 64 (8 * m.length)) n)) := by
  have hn := n.isLt
  have hzeros : zeroBits (8 * m.length + n.toNat) = 7 - n.toNat +
      8 * (if m.length % 64 < 56 then 55 - m.length % 64 else 119 - m.length % 64) := by
    rw [zeroBits]
    split <;> omega
  rw [padBits, List.length_append, messageBits_length, extraBitString_length, hzeros, List.replicate_add]
  simp only [padding, messageBits_append, messageBits_cons, byteBits_sentinel, messageBits_zeros, lengthValue_ofNat,
    messageBits_ser64, List.append_assoc, List.cons_append]

/-- The standard's digest compresses the message's whole blocks and then its padded end. -/
theorem digest_eq_foldl (v : Variant) (m : List Byte) (align : SubbyteAlign) (n : BitVec 3) (ub : Byte) :
    digest v (messageBits m ++ extraBitString align n ub) =
      digestBytes v ((blocks (paddedEnd (remainder m) (sentinel align n ub)
        (lengthValue (BitVec.ofNat 64 (8 * m.length)) n))).foldl compress (chain v m)) := by
  rw [digest, padBits_eq_messageBits, bitsToBytes_messageBits, chain, blocks_append, List.foldl_append, ← chain,
    paddedEnd_eq_append, remainder_length]

end Sys2Proof.Machine.Reference
end

section
/-! ### The commands on a represented message, and runs of commands -/

namespace Sys2Proof.Safety

open Sys2Proof.Machine Sys2Proof.Machine.Reference

theorem exec_init_next (v : Variant) {s : State} (hc : s.cst ≠ .fault) :
    exec (.init v) s = .next (initContext v s) := by
  rw [exec_init, preamble_plain hc]

theorem initContext_represents (v : Variant) (s : State) : Represents (initContext v s) v [] :=
  represents_iff.mpr ⟨rfl, rfl, rfl, rfl, rfl, holdsBytes_emptyBuf⟩

/-- UPDATE appends its payload to the message and writes the context fields only (R112). -/
theorem exec_update_represents {s : State} {v : Variant} {m : List Byte} {len : BitVec 24} {p : List Byte}
    (r : Represents s v m) (hp : p.length = len.toNat) :
    ∃ t, exec (.update len p) s = .next t ∧ Represents t v (m ++ p) ∧
      t = { s with h := t.h, buf := t.buf, blen := t.blen, tbits := t.tbits } := by
  obtain ⟨hc, hv, ht, a⟩ := represents_iff.mp r
  obtain ⟨t, hok, a', ht'⟩ := absorbChunk_absorbed len p a ht
  have hframe := absorbChunk_frame hok
  have htbits : t.tbits = some (BitVec.ofNat 64 (8 * (m ++ p).length)) := by
    rw [ht', ← hp, List.length_append, Nat.mul_add, BitVec.ofNat_add]
  exact ⟨t, by rw [execUpdate_active hc hp, hok, outcomeOf_ok],
    represents_iff.mpr ⟨(congrArg State.cst hframe).trans hc, (congrArg State.var hframe).trans hv, htbits, a'⟩,
    hframe⟩

/-- FINAL emits the standard's digest (R169). -/
theorem exec_final_represents {s : State} {v : Variant} {m : List Byte} (n : BitVec 3) (ub : Byte)
    (r : Represents s v m) : exec (.final n ub) s = .next { clearContext (sendDigest
      (digest v (messageBits m ++ extraBitString s.subbyteAlign n ub)) s) with cst := .done } := by
  obtain ⟨hc, rfl, ht, a⟩ := represents_iff.mp r
  rw [execFinal_active hc, finalizeContext_absorbed n ub a ht, outcomeOf_ok, digest_eq_foldl, chain]

theorem runCommands_cons_next {i : Instr} (is : List Instr) {s t : State} (h : exec i s = .next t) :
    runCommands (i :: is) s = runCommands is t := by
  simp [runCommands, h]

theorem runCommands_append_next {is : List Instr} (js : List Instr) {s t : State}
    (h : runCommands is s = .next t) : runCommands (is ++ js) s = runCommands js t := by
  induction is generalizing s with
  | nil =>
    obtain rfl : s = t := Host.Outcome.next.inj h
    rfl
  | cons i is ih =>
    cases hi : exec i s with
    | next s' =>
      rw [runCommands_cons_next is hi] at h
      rw [List.cons_append, runCommands_cons_next _ hi, ih h]
    | fault f => simp [runCommands, hi] at h
    | refused f => simp [runCommands, hi] at h

theorem updateOf_length {c : List Byte} (h : c.length ≤ Config.maxChunk) :
    c.length = (BitVec.ofNat 24 c.length).toNat := by
  rw [Config.maxChunk] at h
  rw [BitVec.toNat_ofNat]
  omega

/-- A run of UPDATEs appends their payloads to the message and writes the context fields only. -/
theorem runCommands_updates_represents {s : State} {v : Variant} {m : List Byte} {chunks : List (List Byte)}
    (hc : ∀ c ∈ chunks, c.length ≤ Config.maxChunk) (r : Represents s v m) :
    ∃ t, runCommands (chunks.map Assembler.updateOf) s = .next t ∧ Represents t v (m ++ chunks.flatten) ∧
      t = { s with h := t.h, buf := t.buf, blen := t.blen, tbits := t.tbits } := by
  induction chunks generalizing s m with
  | nil => exact ⟨s, rfl, by simpa using r, rfl⟩
  | cons c cs ih =>
    obtain ⟨hc, hcs⟩ := List.forall_mem_cons.mp hc
    obtain ⟨s', hs', r', hframe'⟩ := exec_update_represents r (updateOf_length hc)
    obtain ⟨t, ht, r'', hframe⟩ := ih hcs r'
    refine ⟨t, by rw [List.map_cons, Assembler.updateOf, runCommands_cons_next _ hs', ht], by simpa using r'', ?_⟩
    rw [hframe'] at hframe
    exact hframe

end Sys2Proof.Safety
end

section
/-! ### Scope (00_scope.md): O27, O39, O59 -/

namespace Sys2Proof

open Sys2Proof.Machine Sys2Proof.Safety

/-- Settles O27: it holds, by the weights of `be32`'s bytes. -/
theorem wordBytesAreBigEndianAndInverse : Obligations.WordBytesAreBigEndianAndInverse :=
  fun w b0 b1 b2 b3 => ⟨ser32_be32 b0 b1 b2 b3, be32_extractLsb' w, be32_toNat b0 b1 b2 b3⟩

/-- Settles O39: it holds. INIT represents the empty message, each UPDATE appends its chunk, and FINAL emits the digest
of the message represented. -/
theorem hashOfChunksIsTheStandardDigest : Obligations.HashOfChunksIsTheStandardDigest := by
  intro s v chunks n ub hc hchunks
  obtain ⟨t, hupdates, r, hframe⟩ := runCommands_updates_represents hchunks (initContext_represents v s)
  have hfcode : t.fcode = s.fcode := (congrArg State.fcode hframe :)
  have hdout : t.dout = s.dout := (congrArg State.dout hframe :)
  have halign : t.subbyteAlign = s.subbyteAlign := (congrArg State.subbyteAlign hframe :)
  have hrun : runCommands (.init v :: (chunks.map Assembler.updateOf ++ [.final n ub])) s =
      runCommands [.final n ub] t := by
    rw [runCommands_cons_next _ (exec_init_next v hc), runCommands_append_next _ hupdates]
  rw [← halign, ← hdout, ← hfcode]
  exact ⟨_, hrun.trans (runCommands_cons_next [] (exec_final_represents n ub r)), rfl, r.var, rfl, rfl⟩

/-- Settles O59: it holds. Replacing `ENGINE_BASE` and stepping an engine commute. -/
theorem platformHasItsParameters : Obligations.PlatformHasItsParameters := by
  refine ⟨Platform.numEngines_pos, fun c => ⟨Nat.le_add_left 1 c.furtherEngines, ?_, rfl, fun k hk => ?_⟩,
    fun p k s s' base hs h => ⟨p.setEngine k s', Platform.stepEngine_next hs h, ?_⟩⟩
  · rw [Platform.numEngines, Platform.reset_engines, List.length_replicate]
  · rw [Platform.reset_engines, List.getElem?_replicate_of_lt hk]
  · rw [← Platform.setEngine_withBase]
    exact Platform.stepEngine_next hs h

end Sys2Proof
end

section
/-! ### STATUS (10_state.md R40, R41) -/

namespace Sys2Proof.Machine

/-- STATUS bit by bit, for all values of its fields (R40). -/
theorem statusBits_fields (f : BitVec 3) (v : BitVec 1) (c : BitVec 2) :
    let w : Word := (f.setWidth 32 <<< 4) ||| (v.setWidth 32 <<< 2) ||| c.setWidth 32
    w.toNat = 16 * f.toNat + 4 * v.toNat + c.toNat ∧ w.extractLsb' 0 2 = c ∧ w.extractLsb' 2 1 = v ∧
      w.extractLsb' 3 1 = 0 ∧ w.extractLsb' 4 3 = f ∧ w.extractLsb' 7 25 = 0 := by
  revert f v c
  decide

theorem FaultCode.code_le (f : FaultCode) : f.code.toNat ≤ 3 := by cases f <;> decide

theorem statusPort_idle {s : State} (h : s.dout = []) : s.statusPort = s.status := by
  simp only [State.statusPort, h]

end Sys2Proof.Machine
end

section
/-! ### The invariant's two parts, and the engine's side of the operations -/

namespace Sys2Proof.Safety

open Sys2Proof.Machine

/-- What the invariant says of the engine (R31, R34, R39, R47, R181). -/
structure EngineInv (s : State) : Prop where
  active : s.cst = .active → Held s
  uninit : s.cst = .uninit → Empty s ∧ s.var = .sha256
  done : s.cst = .done → Empty s
  faulted : s.cst = .fault → Held s ∨ Empty s
  code : s.fcode = .none ↔ s.cst ≠ .fault
  notInitialized : s.fcode = .notInitialized → Empty s ∧ s.var = .sha256
  finalized : s.fcode = .finalizedContext → Empty s

/-- What the invariant says of the ports and the host's records (R212, R216). -/
structure PortInv (s : State) : Prop where
  inTransit : s.dout ≠ [] → s.cst = .done ∧ s.taken.length + s.dout.length = 4 * digestWords s.var
  noneInTransit : s.dout = [] → s.taken = []
  wholeDigests : ∀ d ∈ s.digests, d.length = 28 ∨ d.length = 32
  discards : s.discarding = true → s.cst = .fault

theorem inv_iff {s : State} : Inv s ↔ EngineInv s ∧ PortInv s :=
  ⟨fun i => ⟨⟨i.active, i.uninit, i.done, i.faulted, i.code, i.notInitialized, i.finalized⟩,
      ⟨i.inTransit, i.noneInTransit, i.wholeDigests, i.discards⟩⟩,
    fun ⟨e, p⟩ => ⟨e.active, e.uninit, e.done, e.faulted, e.code, e.notInitialized, e.finalized,
      p.inTransit, p.noneInTransit, p.wholeDigests, p.discards⟩⟩

/-! #### States with the same engine -/

theorem SameEngine.refl (s : State) : SameEngine s s := ⟨rfl, rfl, rfl, rfl, rfl, rfl, rfl, rfl⟩

theorem SameEngine.held {s t : State} (e : SameEngine s t) (c : Held s) : Held t := by
  obtain ⟨h, buf, blen, tbits, -⟩ := e
  exact c.transport h.symm buf.symm blen.symm tbits.symm

theorem SameEngine.empty {s t : State} (e : SameEngine s t) (c : Empty s) : Empty t := by
  obtain ⟨h, buf, blen, tbits, -⟩ := e
  exact c.transport h.symm buf.symm blen.symm tbits.symm

/-- The engine's part of the invariant speaks of the engine only. -/
theorem SameEngine.engineInv {s t : State} (e : SameEngine s t) (i : EngineInv s) : EngineInv t := by
  obtain ⟨-, -, -, -, hvar, hcst, hfcode, -⟩ := id e
  exact
    { active := fun h => e.held (i.active (hcst.trans h))
      uninit := fun h => (i.uninit (hcst.trans h)).imp e.empty hvar.symm.trans
      done := fun h => e.empty (i.done (hcst.trans h))
      faulted := fun h => (i.faulted (hcst.trans h)).imp e.held e.empty
      code := by rw [← hfcode, ← hcst]; exact i.code
      notInitialized := fun h => (i.notInitialized (hfcode.trans h)).imp e.empty hvar.symm.trans
      finalized := fun h => e.empty (i.finalized (hfcode.trans h)) }

/-- A host's turn is a reset, or leaves the engine as it is. -/
theorem hostTurn_engine (s : State) :
    (∃ rest, s.host = .assertReset :: rest ∧ hostTurn s = assertReset { s with host := rest }) ∨
    ((∀ rest, s.host ≠ .assertReset :: rest) ∧ SameEngine s (hostTurn s)) := by
  cases hh : s.host with
  | nil => exact .inr ⟨by simp, by rw [hostTurn_nil hh]; exact .refl s⟩
  | cons a rest =>
    rw [hostTurn_cons hh]
    cases a with
    | sendWord w => exact .inr ⟨by simp, .refl s⟩
    | sendByte b => exact .inr ⟨by simp, .refl s⟩
    | readStatus => exact .inr ⟨by simp, .refl s⟩
    | assertReset => exact .inl ⟨rest, rfl, rfl⟩
    | takeDigestByte =>
      rw [hostAct_takeDigestByte]
      obtain ⟨-, h⟩ | ⟨b, -, h⟩ | ⟨b, c, more, -, h⟩ := takeDigestByte_cases { s with host := rest } <;>
        exact .inr ⟨by simp, by rw [h]; exact .refl s⟩

/-! #### The engine's part through the operations -/

theorem assertReset_empty (s : State) : Empty (assertReset s) := ⟨rfl, rfl, rfl, rfl⟩

theorem assertReset_engineInv (s : State) : EngineInv (assertReset s) where
  active := by simp
  uninit := fun _ => ⟨assertReset_empty s, rfl⟩
  done := by simp
  faulted := by simp
  code := by simp
  notInitialized := by simp
  finalized := by simp

theorem assertReset_portInv {s : State} (hd : ∀ d ∈ s.digests, d.length = 28 ∨ d.length = 32) :
    PortInv (assertReset s) where
  inTransit := by simp
  noneInTransit := fun _ => rfl
  wholeDigests := hd
  discards := by simp

theorem initContext_held (v : Variant) (s : State) : Held (initContext v s) where
  accumulator := ⟨initialVector v, rfl⟩
  counts := ⟨0, 0, rfl, rfl, by decide, by decide⟩
  valid := by
    intro n hn i
    obtain rfl : 0 = n := by simpa using hn
    simp

/-- In `ACTIVE` without a fault code, a held context is all the engine's part asks. -/
theorem engineInv_of_active {s : State} (hc : s.cst = .active) (hf : s.fcode = .none) (h : Held s) :
    EngineInv s where
  active := fun _ => h
  uninit := by simp [hc]
  done := by simp [hc]
  faulted := by simp [hc]
  code := by simp [hc, hf]
  notInitialized := by simp [hf]
  finalized := by simp [hf]

/-- In `DONE` without a fault code, an empty context is all the engine's part asks. -/
theorem engineInv_of_done {s : State} (hc : s.cst = .done) (hf : s.fcode = .none) (h : Empty s) :
    EngineInv s where
  active := by simp [hc]
  uninit := by simp [hc]
  done := fun _ => h
  faulted := by simp [hc]
  code := by simp [hc, hf]
  notInitialized := by simp [hf]
  finalized := by simp [hf]

/-- In every context state the context is held or empty. -/
theorem EngineInv.held_or_empty {s : State} (i : EngineInv s) : Held s ∨ Empty s := by
  cases hc : s.cst with
  | uninit => exact .inr (i.uninit hc).1
  | active => exact .inl (i.active hc)
  | done => exact .inr (i.done hc)
  | fault => exact i.faulted hc

/-- An engine fault keeps the engine's part, raised in the context state its code names (R183, R184). -/
theorem EngineInv.raiseFault {s : State} {code : FaultCode} (i : EngineInv s) (hcode : code ≠ .none)
    (hn : code = .notInitialized → s.cst = .uninit) (hf : code = .finalizedContext → s.cst = .done) :
    EngineInv (raiseFault code s) where
  active := by simp
  uninit := by simp
  done := by simp
  faulted := fun _ => i.held_or_empty.imp (·.transport rfl rfl rfl rfl) (·.transport rfl rfl rfl rfl)
  code := by simp [hcode]
  notInitialized := fun h => (i.uninit (hn h)).imp (·.transport rfl rfl rfl rfl) id
  finalized := fun h => (i.done (hf h)).transport rfl rfl rfl rfl

theorem EngineInv.illegalCommand {s : State} (i : EngineInv s) : EngineInv (illegalCommand s) := by
  obtain ⟨-, h⟩ | ⟨-, h⟩ := illegalCommand_cases s
  · rwa [h]
  · rw [h]
    exact i.raiseFault (by decide) (by simp) (by simp)

/-! #### The commands from a state whose engine meets the invariant -/

/-- INIT is discarded in `FAULT` (R189). -/
theorem exec_init_fault (v : Variant) {s : State} (hc : s.cst = .fault) : exec (.init v) s = .next s := by
  rw [exec_init, preamble_fault hc]

/-- Behind the preamble of UPDATE and FINAL the context is held. -/
theorem EngineInv.preamble_next {s : State} (e : EngineInv s) {k : State → Result}
    (hk : Held s → ∃ t, k s = .next t) : ∃ t, preamble true s k = .next t := by
  cases hc : s.cst with
  | uninit => exact ⟨_, preamble_uninit hc⟩
  | active => rw [preamble_active hc]; exact hk (e.active hc)
  | done => exact ⟨_, preamble_done hc⟩
  | fault => exact ⟨_, preamble_fault hc⟩

/-- A command with its payload completes (R31, R47). -/
theorem EngineInv.exec_next {s : State} (e : EngineInv s) {i : Instr} (hw : i.wellFormed = true) :
    ∃ t, exec i s = .next t := by
  cases i with
  | init v =>
    by_cases hc : s.cst = .fault
    · exact ⟨s, exec_init_fault v hc⟩
    · exact ⟨_, exec_init_next v hc⟩
  | update len p =>
    have hp : p.length = len.toNat := by simpa [Instr.wellFormed] using hw
    rw [exec_update_wellFormed s hp]
    refine e.preamble_next fun hheld => ?_
    obtain ⟨t, hok, -⟩ := absorbChunk_held hheld hp
    exact ⟨t, by rw [hok, outcomeOf_ok]⟩
  | final n ub =>
    rw [exec_final]
    refine e.preamble_next fun hheld => ?_
    obtain ⟨hv, hok⟩ := finalizeContext_held n ub hheld
    exact ⟨_, by rw [hok, outcomeOf_ok]⟩

/-- Every command keeps the engine's part: UPDATE by keeping the context held, FINAL by clearing it. -/
theorem EngineInv.exec {s t : State} (e : EngineInv s) {i : Instr} (h : exec i s = .next t) : EngineInv t := by
  have hcode (hc : s.cst = .active) : s.fcode = .none := e.code.mpr (by simp [hc])
  cases i with
  | init v =>
    obtain ⟨-, rfl⟩ | ⟨hc, rfl⟩ := execInit_cases h
    · exact e
    · exact engineInv_of_active rfl (e.code.mpr hc) (initContext_held v s)
  | update len p =>
    obtain ⟨hp, ⟨-, rfl⟩ | ⟨hc, hok⟩ | ⟨hc, rfl⟩ | ⟨hc, rfl⟩⟩ := execUpdate_cases h
    · exact e
    · obtain ⟨t', hok', hheld⟩ := absorbChunk_held (e.active hc) hp
      obtain rfl : t' = t := Except.ok.inj (hok'.symm.trans hok)
      have hframe := absorbChunk_frame hok
      exact engineInv_of_active ((congrArg State.cst hframe).trans hc)
        ((congrArg State.fcode hframe).trans (hcode hc)) hheld
    · exact e.raiseFault (by decide) (fun _ => hc) (by simp)
    · exact e.raiseFault (by decide) (by simp) (fun _ => hc)
  | final n ub =>
    obtain ⟨-, rfl⟩ | ⟨hc, hok⟩ | ⟨hc, rfl⟩ | ⟨hc, rfl⟩ := execFinal_cases h
    · exact e
    · obtain ⟨tb, used, hv, hv', -, -, -, -, rfl⟩ := finalizeContext_cases hok
      exact engineInv_of_done rfl (hcode hc) ⟨rfl, rfl, rfl, rfl⟩
    · exact e.raiseFault (by decide) (fun _ => hc) (by simp)
    · exact e.raiseFault (by decide) (by simp) (fun _ => hc)

end Sys2Proof.Safety
end

section
/-! ### What a command and a step leave of the host's side, and the invariant's second part -/

namespace Sys2Proof.Safety

open Sys2Proof.Machine

theorem SameHostSide.refl (s : State) : SameHostSide s s := ⟨rfl, rfl, rfl, rfl, rfl, rfl⟩

/-- The frame of UPDATE's pseudocode (R112). -/
theorem absorbChunk_hostSide {len : BitVec 24} {p : List Byte} {s t : State} (h : absorbChunk len p s = .ok t) :
    SameHostSide s t ∧ t.subbyteAlign = s.subbyteAlign ∧ t.dout = s.dout ∧ t.var = s.var ∧ t.cst = s.cst ∧
      t.fcode = s.fcode := by
  rw [absorbChunk_frame h]
  exact ⟨.refl s, rfl, rfl, rfl, rfl, rfl⟩

/-- The frame of every command: only FINAL in `ACTIVE` emits anything, the digest of the context's variant. -/
theorem exec_frame {i : Instr} {s t : State} (h : exec i s = .next t) :
    SameHostSide s t ∧ t.subbyteAlign = s.subbyteAlign ∧
      (t.dout = s.dout ∨ (∃ n ub, i = .final n ub) ∧ s.cst = .active ∧ t.cst = .done ∧ t.var = s.var ∧
        ∃ hv, t.dout = s.dout ++ digestBytes s.var hv) := by
  cases i with
  | init v =>
    obtain ⟨-, rfl⟩ | ⟨-, rfl⟩ := execInit_cases h
    · exact ⟨.refl t, rfl, .inl rfl⟩
    · exact ⟨.refl s, rfl, .inl rfl⟩
  | update len p =>
    obtain ⟨-, ⟨-, rfl⟩ | ⟨-, hok⟩ | ⟨-, rfl⟩ | ⟨-, rfl⟩⟩ := execUpdate_cases h
    · exact ⟨.refl t, rfl, .inl rfl⟩
    · obtain ⟨hside, halign, hdout, -⟩ := absorbChunk_hostSide hok
      exact ⟨hside, halign, .inl hdout⟩
    · exact ⟨.refl s, rfl, .inl rfl⟩
    · exact ⟨.refl s, rfl, .inl rfl⟩
  | final n ub =>
    obtain ⟨-, rfl⟩ | ⟨hc, hok⟩ | ⟨-, rfl⟩ | ⟨-, rfl⟩ := execFinal_cases h
    · exact ⟨.refl t, rfl, .inl rfl⟩
    · obtain ⟨-, -, -, hv, -, -, -, -, rfl⟩ := finalizeContext_cases hok
      exact ⟨.refl s, rfl, .inr ⟨⟨n, ub, rfl⟩, hc, rfl, rfl, hv, rfl⟩⟩
    · exact ⟨.refl s, rfl, .inl rfl⟩
    · exact ⟨.refl s, rfl, .inl rfl⟩

/-- Only INIT outside `FAULT` writes `VAR` (R37). -/
theorem exec_var {i : Instr} {s t : State} (h : exec i s = .next t) :
    t.var = s.var ∨ ∃ v, i = .init v ∧ s.cst ≠ .fault ∧ t.var = v := by
  cases i with
  | init v =>
    obtain ⟨-, rfl⟩ | ⟨hc, rfl⟩ := execInit_cases h
    · exact .inl rfl
    · exact .inr ⟨v, rfl, hc, rfl⟩
  | update len p =>
    obtain ⟨-, ⟨-, rfl⟩ | ⟨-, hok⟩ | ⟨-, rfl⟩ | ⟨-, rfl⟩⟩ := execUpdate_cases h
    · exact .inl rfl
    · obtain ⟨-, -, -, hvar, -⟩ := absorbChunk_hostSide hok
      exact .inl hvar
    · exact .inl rfl
    · exact .inl rfl
  | final n ub =>
    obtain ⟨-, rfl⟩ | ⟨-, hok⟩ | ⟨-, rfl⟩ | ⟨-, rfl⟩ := execFinal_cases h
    · exact .inl rfl
    · obtain ⟨-, -, -, hv, -, -, -, -, rfl⟩ := finalizeContext_cases hok
      exact .inl rfl
    · exact .inl rfl
    · exact .inl rfl

/-- A command that is discarded with attached payload leaves the engine in `FAULT` (R92, R185, R189). -/
theorem exec_discards {i : Instr} {s t : State} (h : exec i s = .next t)
    (hd : discardsPayload i s.cst = true) : t.cst = .fault := by
  cases i with
  | init v =>
    have hfault : s.cst = .fault := by simpa using hd
    obtain ⟨-, rfl⟩ | ⟨hc, -⟩ := execInit_cases h
    · exact hfault
    · exact absurd hfault hc
  | update len p => simp at hd
  | final n ub =>
    have hne : s.cst ≠ .active := by simpa using hd
    obtain ⟨hc, rfl⟩ | ⟨hc, -⟩ | ⟨-, rfl⟩ | ⟨-, rfl⟩ := execFinal_cases h
    · exact hc
    · exact absurd hc hne
    · rfl
    · rfl

theorem four_mul_digestWords (v : Variant) : 4 * digestWords v = 28 ∨ 4 * digestWords v = 32 := by
  cases v <;> decide

/-- The ports' part does not speak of what is on the command port, of the host's coming actions or of its STATUS
reads. -/
theorem PortInv.withPorts {s : State} (p : PortInv s) (cmd : List PortItem) (host : List HostAction)
    (log : List Word) : PortInv { s with cmd := cmd, host := host, statusLog := log } :=
  ⟨p.inTransit, p.noneInTransit, p.wholeDigests, p.discards⟩

theorem PortInv.takeDigestByte {s : State} (p : PortInv s) : PortInv (takeDigestByte s) := by
  obtain ⟨-, h⟩ | ⟨b, hd, h⟩ | ⟨b, c, rest, hd, h⟩ := takeDigestByte_cases s
  · rwa [h]
  · obtain ⟨-, hlen⟩ := p.inTransit (by simp [hd])
    have hlast : (s.taken ++ [b]).length = 4 * digestWords s.var := by simpa [hd] using hlen
    rw [h]
    refine ⟨by simp, fun _ => rfl, fun d hmem => ?_, p.discards⟩
    obtain hmem | rfl := by simpa using hmem
    · exact p.wholeDigests d hmem
    · rw [hlast]
      exact four_mul_digestWords s.var
  · obtain ⟨hc, hlen⟩ := p.inTransit (by simp [hd])
    rw [h]
    refine ⟨fun _ => ⟨hc, ?_⟩, by simp, p.wholeDigests, p.discards⟩
    simp only [hd, List.length_append, List.length_cons, List.length_nil] at hlen ⊢
    omega

theorem PortInv.hostTurn {s : State} (p : PortInv s) : PortInv (hostTurn s) := by
  obtain ⟨rest, -, h⟩ | ⟨rest, -, h⟩ | h := hostTurn_cases s <;> rw [h]
  · exact assertReset_portInv p.wholeDigests
  · exact (p.withPorts s.cmd rest s.statusLog).takeDigestByte
  · exact p.withPorts _ _ _

/-- With no digest in transit, the port may discard bytes behind any transaction that leaves the engine in `FAULT`. -/
theorem PortInv.idle {s t : State} (p : PortInv s) (hd : s.dout = []) (hdout : t.dout = [])
    (htaken : t.taken = s.taken) (hdigests : t.digests = s.digests)
    (hdisc : t.discarding = true → t.cst = .fault) : PortInv t where
  inTransit := fun h => absurd hdout h
  noneInTransit := fun _ => htaken.trans (p.noneInTransit hd)
  wholeDigests := by rw [hdigests]; exact p.wholeDigests
  discards := hdisc

theorem PortInv.exec {s t : State} {i : Instr} {cmd : List PortItem} (p : PortInv s) (hd : s.dout = [])
    (h : exec i { s with cmd := cmd, discarding := discardsPayload i s.cst } = .next t) : PortInv t := by
  have hdiscards := exec_discards h
  obtain ⟨⟨-, hdisc, -, htaken, hdigests, -⟩, -, hdout⟩ := exec_frame h
  have hdisc : t.discarding = true → t.cst = .fault := fun ht => hdiscards (hdisc.trans ht)
  obtain hdout | ⟨-, -, hc, hvar, hv, hdout⟩ := hdout
  · exact p.idle hd (hdout.trans hd) htaken.symm hdigests.symm hdisc
  · have htaken : t.taken = [] := htaken.symm.trans (p.noneInTransit hd)
    have hlen : t.dout.length = 4 * digestWords t.var := by
      rw [hdout, hvar]
      simp [hd, digestBytes_length]
    refine ⟨fun _ => ⟨hc, by simp [htaken, hlen]⟩, fun _ => htaken, ?_, hdisc⟩
    rw [← hdigests]
    exact p.wholeDigests

end Sys2Proof.Safety
end

section
/-! ### Steps from a state that meets the invariant -/

namespace Sys2Proof.Safety

open Sys2Proof.Machine

/-- Taking a transaction off the port leaves the engine as it is. -/
theorem EngineInv.withCmd {s : State} (e : EngineInv s) (cmd : List PortItem) (d : Bool) :
    EngineInv { s with cmd := cmd, discarding := d } := SameEngine.engineInv (.refl s) e

theorem EngineInv.hostTurn {s : State} (e : EngineInv s) : EngineInv (hostTurn s) := by
  obtain ⟨rest, -, h⟩ | ⟨-, hsame⟩ := hostTurn_engine s
  · rw [h]
    exact assertReset_engineInv _
  · exact hsame.engineInv e

/-- An ill-formed word leads to `FAULT` from every state, and changes the engine's `CST` and `FCODE` only. -/
theorem illegalCommand_frame (s : State) :
    illegalCommand s = { s with cst := .fault, fcode := (illegalCommand s).fcode } := by
  obtain ⟨hc, h⟩ | ⟨-, h⟩ := illegalCommand_cases s
  · rw [h, ← hc]
  · rw [h]
    rfl

theorem PortInv.illegalCommand {s : State} (p : PortInv s) (hd : s.dout = []) (cmd : List PortItem) :
    PortInv (illegalCommand { s with cmd := cmd, discarding := true }) := by
  rw [illegalCommand_frame]
  exact p.idle hd hd rfl rfl fun _ => rfl

theorem strayByte_cases (s : State) : strayByte s = .next s ∨ strayByte s = .refused .strayPayload := by
  cases h : s.discarding with
  | true => exact .inl (strayByte_discarded h)
  | false => exact .inr (strayByte_refused h)

/-- A step faults only in a command's meaning. -/
theorem step_fault_cases {s : State} {f : Fault} (h : step s = .fault f) :
    ∃ i rest, decode s.cmd = .instr i rest ∧
      exec i { s with cmd := rest, discarding := discardsPayload i s.cst } = .fault f := by
  by_cases hd : s.dout = []
  · cases hdec : decode s.cmd with
    | instr i rest => exact ⟨i, rest, rfl, (step_instr hd hdec).symm.trans h⟩
    | illegal w rest => simp [step_illegal hd hdec] at h
    | waiting => simp [step_waiting hd hdec] at h
    | payloadShort => simp [step_payloadShort hd hdec] at h
    | strayByte b rest =>
      rw [step_strayByte hd hdec] at h
      obtain hs | hs := strayByte_cases { s with cmd := rest } <;> simp [hs] at h
  · simp [step_inTransit hd] at h

end Sys2Proof.Safety
end

section
/-! ### Commands from states with the same engine (10_state.md R46, 20_memory.md R79) -/

namespace Sys2Proof.Safety

open Sys2Proof.Machine

theorem absorbByte_sameEngine {b : Byte} {s s' t : State} (e : SameEngine s s') (h : absorbByte b s = .ok t) :
    ∃ t', absorbByte b s' = .ok t' ∧ SameEngine t t' := by
  obtain ⟨hh, hbuf, hblen, htbits, hvar, hcst, hfcode, halign⟩ := e
  obtain ⟨n, hn, hlen, rfl⟩ | ⟨n, hv, block, hn, hlen, hhv, hblock, rfl⟩ := absorbByte_cases h
  · rw [hblen] at hlen
    exact ⟨{ s' with buf := s'.buf.set n.val (some b), blen := some ⟨n.val + 1, hn⟩ },
      by simp [absorbByte, hlen, hn], hh, by simp only [hbuf], rfl, htbits, hvar, hcst, hfcode, halign⟩
  · rw [hblen] at hlen
    rw [hh] at hhv
    rw [hbuf] at hblock
    have hroom : ¬ n.val + 1 < 64 := by omega
    exact ⟨{ s' with h := some (compress hv block), buf := emptyBuf, blen := some 0 },
      by simp [absorbByte, compressFullBuffer, hlen, hroom, hhv, hblock], rfl, rfl, rfl, htbits, hvar, hcst, hfcode,
      halign⟩

theorem absorbBytes_sameEngine {p : List Byte} {s s' t : State} (e : SameEngine s s')
    (h : absorbBytes p s = .ok t) : ∃ t', absorbBytes p s' = .ok t' ∧ SameEngine t t' := by
  induction p generalizing s s' with
  | nil =>
    obtain rfl : s = t := by simpa using h
    exact ⟨s', rfl, e⟩
  | cons b bs ih =>
    obtain ⟨s₁, hs₁, h⟩ := except_bind_eq_ok h
    obtain ⟨s₁', hs₁', e₁⟩ := absorbByte_sameEngine e hs₁
    obtain ⟨t', ht', et⟩ := ih e₁ h
    exact ⟨t', by rw [absorbBytes_cons, hs₁', except_bind_ok, ht'], et⟩

theorem absorbChunk_sameEngine {len : BitVec 24} {p : List Byte} {s s' t : State} (e : SameEngine s s')
    (h : absorbChunk len p s = .ok t) : ∃ t', absorbChunk len p s' = .ok t' ∧ SameEngine t t' := by
  obtain ⟨u, hu, h⟩ := except_bind_eq_ok h
  obtain ⟨u', hu', hh, hbuf, hblen, htbits, hrest⟩ := absorbBytes_sameEngine e hu
  obtain ⟨tb, htb, rfl⟩ := countBytes_cases h
  exact ⟨{ u' with tbits := some (tb + BitVec.ofNat 64 (8 * len.toNat)) },
    by rw [absorbChunk, hu', except_bind_ok, countBytes_some _ (htbits.symm.trans htb)],
    hh, hbuf, hblen, rfl, hrest⟩

theorem finalizeContext_sameEngine {n : BitVec 3} {ub : Byte} {s s' t : State} (e : SameEngine s s')
    (h : finalizeContext n ub s = .ok t) :
    ∃ t' d, finalizeContext n ub s' = .ok t' ∧ SameEngine t t' ∧ t.dout = s.dout ++ d ∧ t'.dout = s'.dout ++ d := by
  obtain ⟨hh, hbuf, hblen, htbits, hvar, hcst, hfcode, halign⟩ := e
  obtain ⟨tb, used, hv, hv', htb, hused, hhv, hpad, rfl⟩ := finalizeContext_cases h
  rw [hbuf, halign] at hpad
  exact ⟨_, digestBytes s.var hv',
    finalizeContext_of_padded (htbits.symm.trans htb) (hblen.symm.trans hused) (hh.symm.trans hhv) hpad,
    ⟨rfl, rfl, rfl, rfl, hvar, rfl, hfcode, halign⟩, rfl, by rw [hvar]; rfl⟩

theorem SameEngine.raiseFault {s s' : State} (e : SameEngine s s') (code : FaultCode) :
    SameEngine (raiseFault code s) (raiseFault code s') := by
  obtain ⟨hh, hbuf, hblen, htbits, hvar, -, -, halign⟩ := e
  exact ⟨hh, hbuf, hblen, htbits, hvar, rfl, rfl, halign⟩

theorem SameEngine.initContext {s s' : State} (e : SameEngine s s') (v : Variant) :
    SameEngine (initContext v s) (initContext v s') := by
  obtain ⟨-, -, -, -, -, -, hfcode, halign⟩ := e
  exact ⟨rfl, rfl, rfl, rfl, rfl, rfl, hfcode, halign⟩

/-- As the state `t` follows on `s`, so a state with `t`'s engine follows on `s'`, by the outcome `r`, and the same bytes
are emitted. -/
def SameEffect (s s' t : State) (r : Result) : Prop :=
  ∃ t' d, r = .next t' ∧ SameEngine t t' ∧ t.dout = s.dout ++ d ∧ t'.dout = s'.dout ++ d

theorem SameEngine.sameEffect {s s' t t' : State} {r : Result} (e : SameEngine t t') (hr : r = .next t')
    (hd : t.dout = s.dout) (hd' : t'.dout = s'.dout) : SameEffect s s' t r :=
  ⟨t', [], hr, e, by rw [hd, List.append_nil], by rw [hd', List.append_nil]⟩

/-- What the body of UPDATE or FINAL does from states with the same engine, the command does. -/
theorem preamble_sameEffect {s s' t : State} {k : State → Result} (e : SameEngine s s')
    (h : preamble true s k = .next t) (hk : k s = .next t → SameEffect s s' t (k s')) :
    SameEffect s s' t (preamble true s' k) := by
  obtain ⟨-, -, -, -, -, hcst, -⟩ := id e
  obtain ⟨hc, rfl⟩ | ⟨hc, hbody⟩ | ⟨hc, rfl⟩ | ⟨hc, rfl⟩ := preamble_cases h <;> rw [hcst] at hc
  · exact e.sameEffect (preamble_fault hc) rfl rfl
  · rw [preamble_active hc]
    exact hk hbody
  · exact (e.raiseFault _).sameEffect (preamble_uninit hc) rfl rfl
  · exact (e.raiseFault _).sameEffect (preamble_done hc) rfl rfl

/-- Every command reads and writes the engine's fields alone, and emits what it computes from them. -/
theorem exec_sameEffect {i : Instr} {s s' t : State} (e : SameEngine s s') (h : exec i s = .next t) :
    SameEffect s s' t (exec i s') := by
  cases i with
  | init v =>
    obtain ⟨-, -, -, -, -, hcst, -⟩ := id e
    obtain ⟨hc, rfl⟩ | ⟨hc, rfl⟩ := execInit_cases h <;> rw [hcst] at hc
    · exact e.sameEffect (exec_init_fault v hc) rfl rfl
    · exact (e.initContext v).sameEffect (exec_init_next v hc) rfl rfl
  | update len p =>
    obtain ⟨hp, -⟩ := execUpdate_cases h
    rw [exec_update_wellFormed _ hp] at h ⊢
    refine preamble_sameEffect e h fun hbody => ?_
    have hok := outcomeOf_eq_next hbody
    obtain ⟨t', hok', et⟩ := absorbChunk_sameEngine e hok
    obtain ⟨-, -, hdout, -⟩ := absorbChunk_hostSide hok
    obtain ⟨-, -, hdout', -⟩ := absorbChunk_hostSide hok'
    exact et.sameEffect (by rw [hok', outcomeOf_ok]) hdout hdout'
  | final n ub =>
    rw [exec_final] at h ⊢
    refine preamble_sameEffect e h fun hbody => ?_
    obtain ⟨t', d, hok', et, hdout, hdout'⟩ := finalizeContext_sameEngine e (outcomeOf_eq_next hbody)
    exact ⟨t', d, by rw [hok', outcomeOf_ok], et, hdout, hdout'⟩

end Sys2Proof.Safety
end

section
/-! ### The decoder on what the encoder writes (30_encoding.md R80, R92) -/

namespace Sys2Proof

theorem decodeWord_encodeWord (i : Instr) : decodeWord (encodeWord i) = some i.header := by
  cases i with
  | init v => exact Laws.HeaderRoundTrip.init v
  | update len p => exact Laws.HeaderRoundTrip.update len p
  | final n ub => exact Laws.HeaderRoundTrip.final n ub

theorem decode_encode_append {i : Instr} (hw : i.wellFormed = true) (rest : List PortItem) :
    decode (encode i ++ rest) = .instr i rest := by
  have hword := decodeWord_encodeWord i
  cases i with
  | init v => exact decode_init rest hword
  | update len p =>
    have hp : p.length = len.toNat := by simpa [Instr.wellFormed] using hw
    exact decode_update rest hword hp
  | final n ub => exact decode_final rest hword

/-- Before its last item has arrived, a command is waited for. -/
theorem decode_encode_take {i : Instr} (hw : i.wellFormed = true) {k : Nat} (hk : k < (encode i).length) :
    decode ((encode i).take k) = .waiting := by
  cases k with
  | zero => rfl
  | succ k =>
    have hword := decodeWord_encodeWord i
    have hk : k < i.payload.length := by simpa [encode] using hk
    cases i with
    | init v => simp [Instr.payload] at hk
    | update len p =>
      have hp : p.length = len.toNat := by simpa [Instr.wellFormed] using hw
      have hk : k < p.length := hk
      rw [encode, List.take_succ_cons, ← List.map_take]
      exact decode_update_waiting hword (by simp only [Instr.payload, List.length_take]; omega)
    | final n ub => simp [Instr.payload] at hk

end Sys2Proof
end

section
/-! ### Sending a command and taking a digest (20_memory.md R61 to R63, 70_reset_and_hazards.md R216) -/

namespace Sys2Proof.Machine

/-- The host's action that puts an item on the command port. -/
def sendItem : PortItem → HostAction
  | .word w => .sendWord w
  | .byte b => .sendByte b

theorem sendCommand_eq_map (i : Instr) : Assembler.sendCommand i = (encode i).map sendItem :=
  List.map_congr_left fun x _ => by cases x <;> rfl

theorem hostAct_sendItem (x : PortItem) (s : State) : hostAct (sendItem x) s = { s with cmd := s.cmd ++ [x] } := by
  cases x <;> rfl

/-- While the items on the port are no whole transaction, the host can put the next one behind them. -/
theorem run_sendItems (items : List PortItem) {s : State} {rest : List HostAction} (hd : s.dout = [])
    (hhost : s.host = items.map sendItem ++ rest)
    (hwait : ∀ k < items.length, decode (s.cmd ++ items.take k) = .waiting) :
    Sys2Proof.core.run items.length s = .next { s with cmd := s.cmd ++ items, host := rest } := by
  induction items generalizing s with
  | nil =>
    have hrest : s.host = rest := hhost
    simp [← hrest]
  | cons x xs ih =>
    have hstep : step s = .next { s with cmd := s.cmd ++ [x], host := xs.map sendItem ++ rest } := by
      rw [step_waiting hd (by simpa using hwait 0 (by simp)), hostTurn_cons (rest := xs.map sendItem ++ rest) hhost,
        hostAct_sendItem]
    have hnext : ∀ k < xs.length, decode (s.cmd ++ [x] ++ xs.take k) = .waiting := fun k hk => by
      simpa using hwait (k + 1) (by simpa using hk)
    have hsends := ih (s := { s with cmd := s.cmd ++ [x], host := xs.map sendItem ++ rest }) hd rfl hnext
    rw [List.append_assoc, List.singleton_append] at hsends
    exact (run_succ xs.length hstep).trans hsends

/-- A command sent on a free port is run by the step after its last item. -/
theorem run_sendCommand {i : Instr} {s : State} {rest : List HostAction} (hw : i.wellFormed = true)
    (hd : s.dout = []) (hcmd : s.cmd = []) (hhost : s.host = Assembler.sendCommand i ++ rest) :
    Sys2Proof.core.run ((Assembler.sendCommand i).length + 1) s =
      exec i { s with host := rest, discarding := discardsPayload i s.cst } := by
  rw [sendCommand_eq_map] at hhost ⊢
  have hsend := run_sendItems (encode i) hd hhost (fun k hk => by rw [hcmd]; exact decode_encode_take hw hk)
  have hdec : decode (s.cmd ++ encode i) = .instr i s.cmd := by
    simpa [hcmd] using decode_encode_append hw []
  rw [List.length_map, run_add 1 hsend, run_one]
  exact step_instr (s := { s with cmd := s.cmd ++ encode i, host := rest }) hd hdec

theorem step_takeLastByte {s : State} {b : Byte} {rest : List HostAction} (hd : s.dout = [b])
    (hhost : s.host = .takeDigestByte :: rest) : step s =
      .next { s with dout := [], host := rest, taken := [], digests := s.digests ++ [s.taken ++ [b]] } := by
  rw [step_inTransit (by simp [hd]), hostTurn_cons hhost, hostAct_takeDigestByte,
    takeDigestByte_last (s := { s with host := rest }) hd]

theorem step_takeByte {s : State} {b c : Byte} {bs : List Byte} {rest : List HostAction}
    (hd : s.dout = b :: c :: bs) (hhost : s.host = .takeDigestByte :: rest) :
    step s = .next { s with dout := c :: bs, host := rest, taken := s.taken ++ [b] } := by
  rw [step_inTransit (by simp [hd]), hostTurn_cons hhost, hostAct_takeDigestByte,
    takeDigestByte_more (s := { s with host := rest }) hd]

/-- The host takes all bytes of the digest in transit, and has then taken the digest. -/
theorem run_takeDigest {s : State} {b : Byte} {bs : List Byte} {rest : List HostAction} (hd : s.dout = b :: bs)
    (hhost : s.host = List.replicate (bs.length + 1) .takeDigestByte ++ rest) :
    Sys2Proof.core.run (bs.length + 1) s =
      .next { s with dout := [], host := rest, taken := [], digests := s.digests ++ [s.taken ++ b :: bs] } := by
  induction bs generalizing s b with
  | nil => exact (run_one s).trans (step_takeLastByte hd hhost)
  | cons c cs ih =>
    have htake := ih (b := c) (s := { s with
      dout := c :: cs
      host := List.replicate (cs.length + 1) .takeDigestByte ++ rest
      taken := s.taken ++ [b] }) rfl rfl
    rw [List.append_assoc, List.singleton_append] at htake
    exact (run_succ _ (step_takeByte hd hhost)).trans htake

end Sys2Proof.Machine
end

section
/-! ### A hash sent by the host (70_reset_and_hazards.md R214, R223) -/

namespace Sys2Proof.Safety

open Sys2Proof.Machine Sys2Proof.Machine.Reference

theorem Represents.withHost {s : State} {v : Variant} {m : List Byte} (r : Represents s v m)
    (host : List HostAction) (d : Bool) : Represents { s with host := host, discarding := d } v m :=
  ⟨r.cst, r.var, r.h, r.blen, r.tbits, r.buf⟩

/-- Chunks that the host sends are appended to the message, and nothing but the context fields, the host's actions and
the port's memory changes. -/
theorem run_sendUpdates {s : State} {v : Variant} {m : List Byte} {chunks : List (List Byte)}
    {rest : List HostAction} (hchunks : ∀ c ∈ chunks, c.length ≤ Config.maxChunk) (r : Represents s v m)
    (hd : s.dout = []) (hcmd : s.cmd = [])
    (hhost : s.host = (chunks.map Assembler.updateOf).flatMap Assembler.sendCommand ++ rest) :
    ∃ k t, Sys2Proof.core.run k s = .next t ∧ Represents t v (m ++ chunks.flatten) ∧
      t = { s with h := t.h, buf := t.buf, blen := t.blen, tbits := t.tbits, host := rest,
                   discarding := t.discarding } := by
  induction chunks generalizing s m with
  | nil =>
    have hrest : s.host = rest := hhost
    exact ⟨0, s, rfl, by simpa using r, by rw [← hrest]⟩
  | cons c cs ih =>
    obtain ⟨hc, hcs⟩ := List.forall_mem_cons.mp hchunks
    have hlen := updateOf_length hc
    rw [List.map_cons, List.flatMap_cons, List.append_assoc] at hhost
    have hsend := run_sendCommand (by simp [Instr.wellFormed, Assembler.updateOf, ← hlen]) hd hcmd hhost
    obtain ⟨s', hs', r', hframe'⟩ := exec_update_represents (r.withHost _ false) hlen
    obtain ⟨k, t, hrun, r'', hframe⟩ := ih hcs r' (by rw [hframe', hd]) (by rw [hframe', hcmd]) (by rw [hframe'])
    refine ⟨_, t, (run_add k (hsend.trans hs')).trans hrun, by simpa using r'', ?_⟩
    rw [hframe'] at hframe
    exact hframe

/-- A hash that the host sends on a free port ends with the standard's digest in transit. -/
theorem run_sendHash {s : State} {v : Variant} {chunks : List (List Byte)} {n : BitVec 3} {ub : Byte}
    {rest : List HostAction} (hchunks : ∀ c ∈ chunks, c.length ≤ Config.maxChunk) (hc : s.cst ≠ .fault)
    (hd : s.dout = []) (hcmd : s.cmd = [])
    (hhost : s.host =
      (Instr.init v :: (chunks.map Assembler.updateOf ++ [.final n ub])).flatMap Assembler.sendCommand ++ rest) :
    ∃ k t, Sys2Proof.core.run k s = .next t ∧
      t.dout = digest v (messageBits chunks.flatten ++ extraBitString s.subbyteAlign n ub) ∧
      t.cst = .done ∧ t.var = v ∧ t.fcode = s.fcode ∧ t.cmd = [] ∧ t.host = rest ∧ t.taken = s.taken ∧
      t.digests = s.digests := by
  simp only [List.flatMap_cons, List.flatMap_append, List.flatMap_nil, List.append_nil, List.append_assoc] at hhost
  have hinit := (run_sendCommand rfl hd hcmd hhost).trans (exec_init_next v hc)
  obtain ⟨k, u, hupdates, r, hframe⟩ := run_sendUpdates hchunks
    (initContext_represents v { s with
      host := (chunks.map Assembler.updateOf).flatMap Assembler.sendCommand ++
        (Assembler.sendCommand (.final n ub) ++ rest)
      discarding := discardsPayload (.init v) s.cst })
    hd hcmd rfl
  have hd : u.dout = [] := (congrArg State.dout hframe).trans hd
  have hcmd : u.cmd = [] := (congrArg State.cmd hframe).trans hcmd
  have hhost : u.host = Assembler.sendCommand (.final n ub) ++ rest := (congrArg State.host hframe :)
  have halign : u.subbyteAlign = s.subbyteAlign := (congrArg State.subbyteAlign hframe :)
  have hfinal := (run_sendCommand rfl hd hcmd hhost).trans (exec_final_represents n ub (r.withHost rest _))
  refine ⟨_, _, (run_add _ ((run_add k hinit).trans hupdates)).trans hfinal, ?_, rfl, r.var,
    (congrArg State.fcode hframe :), hcmd, rfl, (congrArg State.taken hframe :), (congrArg State.digests hframe :)⟩
  simp [hd, halign]

end Sys2Proof.Safety

namespace Sys2Proof.Machine.Reference

theorem digest_length (v : Variant) (bits : List Bool) : (digest v bits).length = 4 * digestWords v :=
  digestBytes_length v _

end Sys2Proof.Machine.Reference
end

section
/-! ### State (10_state.md): O14, O15, O40, O45 to O51, O54 -/

namespace Sys2Proof

open Sys2Proof.Machine Sys2Proof.Safety Sys2Proof.Machine.Reference

/-- Settles O14: it holds. `STATUS` is the word of its three fields, whose bits do not overlap. -/
theorem statusHoldsItsFields : Obligations.StatusHoldsItsFields := by
  intro s
  obtain ⟨hval, h0, h2, h3, h4, h7⟩ := statusBits_fields s.fcode.code s.var.bit s.cst.code
  exact ⟨hval, h0, h2, h3, h4, h7, s.fcode.code_le⟩

/-- Settles O15: it holds. The port's value does not depend on the record of reads. -/
theorem statusReadHasNoSideEffect : Obligations.StatusReadHasNoSideEffect :=
  fun s => ⟨hostAct_readStatus s, rfl, statusPort_idle⟩

/-- Settles O47: it holds, field by field. -/
theorem resetValues : Obligations.ResetValues :=
  ⟨rfl, rfl, rfl, by decide, rfl, fun i => emptyBuf_get i.val i.isLt, rfl, rfl, rfl⟩

/-- Settles O48: it holds, field by field; the command port by the two cases of a digest in transit or none. -/
theorem assertingResetRestoresResetValues : Obligations.AssertingResetRestoresResetValues := by
  intro s
  rw [hostAct_assertReset]
  have hstatus : (assertReset s).status = 0x00000000#32 := by
    rw [State.status, assertReset_cst, assertReset_var, assertReset_fcode]
    decide
  exact ⟨rfl, rfl, rfl, hstatus, assertReset_empty s, rfl, assertReset_cmd_idle s, assertReset_cmd_inTransit s,
    rfl, rfl, rfl, rfl, rfl, rfl⟩

/-- Settles O49: it holds. The state after reset is what asserting reset makes of it. -/
theorem resetMeetsTheInvariant : Obligations.ResetMeetsTheInvariant :=
  inv_iff.mpr ⟨assertReset_engineInv State.reset, assertReset_portInv (s := State.reset) (by simp)⟩

/-- Settles O50: it holds. The engine's part of the invariant and the ports' part are kept by the host's turn, an
ill-formed word, a discarded byte and every command. -/
theorem everyStepKeepsTheInvariant : Obligations.EveryStepKeepsTheInvariant := by
  intro s t i h
  obtain ⟨e, p⟩ := inv_iff.mp i
  refine inv_iff.mpr ?_
  obtain ⟨-, rfl⟩ | ⟨hd, w, rest, -, rfl⟩ | ⟨hd, b, rest, -, -, rfl⟩ | ⟨hd, i, rest, -, hexec⟩ := step_cases h
  · exact ⟨e.hostTurn, p.hostTurn⟩
  · exact ⟨(e.withCmd rest true).illegalCommand, p.illegalCommand hd rest⟩
  · exact ⟨e.withCmd rest s.discarding, p.withPorts rest s.host s.statusLog⟩
  · exact ⟨(e.withCmd rest _).exec hexec, p.exec hd hexec⟩

/-- Settles O51: it holds. A step can fault only in a command's meaning, and on a well-formed command from a state that
meets the invariant that answers a next state. -/
theorem noStepReadsAnUnspecifiedField : Obligations.NoStepReadsAnUnspecifiedField := by
  refine ⟨fun α field => readField_none field, fun s f i h => ?_⟩
  obtain ⟨e, -⟩ := inv_iff.mp i
  obtain ⟨i, rest, hdec, hexec⟩ := step_fault_cases h
  obtain ⟨-, -, -, hw⟩ := decode_instr_cases hdec
  obtain ⟨t, hnext⟩ := (e.withCmd rest (discardsPayload i s.cst)).exec_next hw
  simp [hnext] at hexec

/-- Settles O46: it holds. Of what a step can do only reset and INIT outside `FAULT` write `VAR`. -/
theorem onlyInitAndResetWriteTheVariant : Obligations.OnlyInitAndResetWriteTheVariant := by
  intro s t h
  obtain ⟨-, rfl⟩ | ⟨-, w, rest, -, rfl⟩ | ⟨-, b, rest, -, -, rfl⟩ | ⟨-, i, rest, hdec, hexec⟩ := step_cases h
  · obtain ⟨rest, hhost, hreset⟩ | ⟨-, -, -, -, -, hvar, -⟩ := hostTurn_engine s
    · exact .inr (.inr ⟨rest, hhost, by rw [hreset, assertReset_var]⟩)
    · exact .inl hvar.symm
  · rw [illegalCommand_frame]
    exact .inl rfl
  · exact .inl rfl
  · obtain hvar | ⟨v, rfl, hc, hvar⟩ := exec_var hexec
    · exact .inl hvar
    · exact .inr (.inl ⟨v, rest, hdec, hc, hvar⟩)

/-- Settles O45: it holds, row by row, from what each command, an ill-formed word and the host's turn can do. -/
theorem contextStateFollowsTheTable : Obligations.ContextStateFollowsTheTable := by
  intro s t i h
  have hnone : s.cst ≠ .fault → s.fcode = .none := i.code.mpr
  refine ⟨fun hwait => ?_, fun hd b rest hdec => ?_, fun hd w rest hdec => ?_, fun hd v rest hdec => ?_,
    fun hd len p rest hdec => ?_, fun hd n ub rest hdec => ?_⟩
  · obtain rfl : hostTurn s = t := by
      by_cases hd : s.dout = []
      · exact Host.Outcome.next.inj ((step_waiting hd (hwait.resolve_left (by simp [hd]))).symm.trans h)
      · exact Host.Outcome.next.inj ((step_inTransit hd).symm.trans h)
    obtain ⟨rest, hhost, hreset⟩ | ⟨hhost, -, -, -, -, -, hcst, hfcode, -⟩ := hostTurn_engine s
    · rw [hreset]
      exact ⟨fun _ => ⟨rfl, rfl⟩, fun hne => absurd hhost (hne rest)⟩
    · exact ⟨fun ⟨rest, hr⟩ => absurd hr (hhost rest), fun _ => ⟨hcst.symm, hfcode.symm⟩⟩
  · rw [step_strayByte hd hdec] at h
    obtain hs | hs := strayByte_cases { s with cmd := rest } <;> rw [hs] at h <;> cases h
    exact ⟨rfl, rfl⟩
  · obtain rfl := Host.Outcome.next.inj ((step_illegal hd hdec).symm.trans h)
    obtain ⟨hc, heq⟩ | ⟨hc, heq⟩ := illegalCommand_cases { s with cmd := rest, discarding := true } <;>
      rw [heq] <;> simp only at hc
    · simp [hc]
    · cases hs : s.cst with
      | fault => exact absurd hs hc
      | uninit | active | done => exact ⟨rfl, rfl⟩
  · rw [step_instr hd hdec] at h
    obtain ⟨hc, rfl⟩ | ⟨hc, rfl⟩ := execInit_cases h <;> simp only at hc
    · simp [hc]
    · cases hs : s.cst with
      | fault => exact absurd hs hc
      | uninit | active | done => exact ⟨rfl, hnone hc⟩
  · rw [step_instr hd hdec] at h
    obtain ⟨-, ⟨hc, rfl⟩ | ⟨hc, hok⟩ | ⟨hc, rfl⟩ | ⟨hc, rfl⟩⟩ := execUpdate_cases h <;> simp only at hc
    · simp [hc]
    · obtain ⟨-, -, -, -, hcst, hfcode⟩ := absorbChunk_hostSide hok
      simp [hc, hcst, hfcode, hnone]
    · simp [hc]
    · simp [hc]
  · rw [step_instr hd hdec] at h
    obtain ⟨hc, rfl⟩ | ⟨hc, hok⟩ | ⟨hc, rfl⟩ | ⟨hc, rfl⟩ := execFinal_cases h <;> simp only at hc
    · simp [hc]
    · obtain ⟨-, -, -, hv, -, -, -, -, rfl⟩ := finalizeContext_cases hok
      simp [hc, hnone]
    · simp [hc]
    · simp [hc]

/-- Settles O54: it holds. Each operation a command runs reads and writes the engine's fields alone. -/
theorem commandsDependOnTheEngineAlone : Obligations.CommandsDependOnTheEngineAlone :=
  fun _ _ _ _ e h => exec_sameEffect e h

/-- Settles O40: it holds. The host's INIT, UPDATEs and FINAL run one after another, the digest is then in transit, and
the host's last actions take it. -/
theorem hostObservesTheDigestOfAHash : Obligations.HostObservesTheDigestOfAHash := by
  intro v align chunks n ub hchunks
  obtain ⟨k, t, hrun, hdout, hcst, hvar, hfcode, hcmd, hhost, htaken, hdigests⟩ := run_sendHash
    (s := { State.reset with
      subbyteAlign := align
      host := (Instr.init v :: (chunks.map Assembler.updateOf ++ [.final n ub])).flatMap Assembler.sendCommand ++
        List.replicate (4 * digestWords v) .takeDigestByte })
    hchunks (by simp) rfl rfl rfl
  generalize hdigest : digest v (messageBits chunks.flatten ++ extraBitString align n ub) = d at hdout ⊢
  have hlen : d.length = 4 * digestWords v := by rw [← hdigest, digest_length]
  obtain ⟨b, bs, rfl⟩ := List.exists_cons_of_length_pos (l := d) (by have := four_mul_digestWords v; omega)
  have htake := run_takeDigest (rest := []) hdout (by rw [hhost, ← hlen, List.length_cons, List.append_nil])
  refine ⟨_, _, (run_add _ hrun).trans htake, ⟨rfl, hcmd, rfl⟩, ?_⟩
  simp [observation, hcst, htaken, hdigests, State.status, hvar, hfcode]

end Sys2Proof
end

section
/-! ### Command words and the headers they decode to (30_encoding.md R83 to R89) -/

namespace Sys2Proof

/-- A mask that covers a field fixes it. -/
theorem extractLsb'_of_and_eq {w mask value : Word} {start len : Nat} (h : w &&& mask = value)
    (hmask : mask.extractLsb' start len = BitVec.allOnes len) :
    w.extractLsb' start len = value.extractLsb' start len := by
  rw [← h, BitVec.extractLsb'_and, hmask, BitVec.and_allOnes]

/-- A word is its fields in INIT's format (R83). -/
theorem append_initFields (w : Word) : w.extractLsb' 5 27 ++ w.extractLsb' 4 1 ++ w.extractLsb' 0 4 = w := by
  simp only [BitVec.extractLsb'_append_extractLsb'_eq_extractLsb']
  exact BitVec.extractLsb'_eq_self

/-- A word is its fields in UPDATE's format (R84). -/
theorem append_updateFields (w : Word) : lenField w ++ w.extractLsb' 4 4 ++ w.extractLsb' 0 4 = w := by
  simp only [lenField, BitVec.extractLsb'_append_extractLsb'_eq_extractLsb']
  exact BitVec.extractLsb'_eq_self

/-- A word is its fields in FINAL's format (R85). -/
theorem append_finalFields (w : Word) : w.extractLsb' 24 8 ++ ubField w ++ w.extractLsb' 11 5 ++ nField w ++
    w.extractLsb' 4 4 ++ w.extractLsb' 0 4 = w := by
  simp only [ubField, nField, BitVec.extractLsb'_append_extractLsb'_eq_extractLsb']
  exact BitVec.extractLsb'_eq_self

theorem bit_variantField (w : Word) : (variantField w).bit = w.extractLsb' 4 1 := by
  refine BitVec.eq_of_getLsbD_eq fun i hi => ?_
  obtain rfl : i = 0 := by omega
  rw [variantField]
  cases h : w.getLsbD 4 <;> simp [Variant.ofBit, Variant.bit, h, -BitVec.getLsbD_eq_getElem]

/-- All that decoding a word to a header says of the word (R89). -/
theorem decodeWord_cases {w : Word} {hdr : Header} (h : decodeWord w = some hdr) :
    (w &&& 0xFFFFFFEF#32 = 0x00000001#32 ∧ hdr = .init (variantField w)) ∨
    (w &&& 0x000000FF#32 = 0x00000002#32 ∧ hdr = .update (lenField w)) ∨
    (w &&& 0xFF00F8FF#32 = 0x00000003#32 ∧ hdr = .final (nField w) (ubField w)) := by
  rw [decodeWord] at h
  split at h
  · exact .inl ⟨‹_›, (Option.some.inj h).symm⟩
  · split at h
    · exact .inr (.inl ⟨‹_›, (Option.some.inj h).symm⟩)
    · split at h
      · exact .inr (.inr ⟨‹_›, (Option.some.inj h).symm⟩)
      · cases h

/-- Only a header's own word decodes to it: the pattern fixes the bits outside the header's fields. -/
theorem encodeHeader_of_decodeWord {w : Word} {hdr : Header} (h : decodeWord w = some hdr) :
    encodeHeader hdr = w := by
  obtain ⟨hpat, rfl⟩ | ⟨hpat, rfl⟩ | ⟨hpat, rfl⟩ := decodeWord_cases h
  · have hreserved := extractLsb'_of_and_eq (start := 5) (len := 27) hpat (by decide)
    have hop := extractLsb'_of_and_eq (start := 0) (len := 4) hpat (by decide)
    conv_rhs => rw [← append_initFields w, hreserved, hop, ← bit_variantField]
    rfl
  · have hlow := extractLsb'_of_and_eq (start := 4) (len := 4) hpat (by decide)
    have hop := extractLsb'_of_and_eq (start := 0) (len := 4) hpat (by decide)
    conv_rhs => rw [← append_updateFields w, hlow, hop]
    rfl
  · have hhigh := extractLsb'_of_and_eq (start := 24) (len := 8) hpat (by decide)
    have hmid := extractLsb'_of_and_eq (start := 11) (len := 5) hpat (by decide)
    have hlow := extractLsb'_of_and_eq (start := 4) (len := 4) hpat (by decide)
    have hop := extractLsb'_of_and_eq (start := 0) (len := 4) hpat (by decide)
    conv_rhs => rw [← append_finalFields w, hhigh, hmid, hlow, hop]
    rfl

end Sys2Proof
end

section
/-! ### The bytes of a digest (42_finalize.md R166) -/

namespace Sys2Proof.Machine

theorem ser32_getElem? (w : Word) {j : Nat} (hj : j < 4) : (ser32 w)[j]? = some (w.extractLsb' (24 - 8 * j) 8) := by
  match j with
  | 0 | 1 | 2 | 3 => rfl

theorem flatMap_ser32_getElem? {ws : List Word} {i j : Nat} (hi : i < ws.length) (hj : j < 4) :
    (ws.flatMap ser32)[4 * i + j]? = (ser32 ws[i])[j]? := by
  induction ws generalizing i with
  | nil => simp at hi
  | cons w ws ih =>
    rw [List.flatMap_cons]
    cases i with
    | zero => rw [List.getElem?_append_left (by simpa using hj), Nat.mul_zero, Nat.zero_add, List.getElem_cons_zero]
    | succ i =>
      have hidx : 4 * (i + 1) + j - (ser32 w).length = 4 * i + j := by rw [ser32_length]; omega
      rw [List.getElem?_append_right (by rw [ser32_length]; omega), hidx, ih (by simpa using hi),
        List.getElem_cons_succ]

theorem digestBytes_getElem? (v : Variant) (h : Vector Word 8) {i j : Nat} (hv : i < digestWords v) (hi : i < 8)
    (hj : j < 4) : (digestBytes v h)[4 * i + j]? = some (h[i].extractLsb' (24 - 8 * j) 8) := by
  have hlen : i < (h.toList.take (digestWords v)).length := by
    rw [List.length_take, Vector.length_toList]
    omega
  rw [digestBytes, flatMap_ser32_getElem? hlen hj, ser32_getElem? _ hj, List.getElem_take, Vector.getElem_toList]

end Sys2Proof.Machine
end

section
/-! ### What the host does with `dout` (20_memory.md R63, 70_reset_and_hazards.md R210, R216) -/

namespace Sys2Proof.Machine

/-- The host takes bytes of the digest in transit, but not the last one. -/
theorem run_takeBytes {k : Nat} {s : State} {rest : List HostAction} (hk : k < s.dout.length)
    (hhost : s.host = List.replicate k .takeDigestByte ++ rest) :
    Sys2Proof.core.run k s =
      .next { s with dout := s.dout.drop k, host := rest, taken := s.taken ++ s.dout.take k } := by
  induction k generalizing s with
  | zero =>
    have hrest : s.host = rest := hhost
    simp [← hrest]
  | succ k ih =>
    obtain ⟨b, c, bs, hd⟩ : ∃ b c bs, s.dout = b :: c :: bs := by
      match hd : s.dout with
      | [] | [_] => simp [hd] at hk
      | b :: c :: bs => exact ⟨b, c, bs, rfl⟩
    have hstep : step s = .next { s with
        dout := c :: bs
        host := List.replicate k .takeDigestByte ++ rest
        taken := s.taken ++ [b] } := step_takeByte hd hhost
    rw [run_succ k hstep, ih (by simpa [hd] using hk) rfl]
    simp [hd]

/-- A host's turn changes `dout` only by taking its first byte, or by a reset. -/
theorem hostTurn_dout (s : State) : (hostTurn s).dout = s.dout ∨
    (∃ b rest, s.host = .takeDigestByte :: rest ∧ s.dout = b :: (hostTurn s).dout ∧
      ((hostTurn s).dout ≠ [] → (hostTurn s).taken = s.taken ++ [b] ∧ (hostTurn s).digests = s.digests) ∧
      ((hostTurn s).dout = [] → (hostTurn s).taken = [] ∧ (hostTurn s).digests = s.digests ++ [s.taken ++ [b]])) ∨
    (∃ rest, s.host = .assertReset :: rest ∧ (hostTurn s).dout = []) := by
  obtain ⟨rest, hhost, h⟩ | ⟨rest, hhost, h⟩ | h := hostTurn_cases s
  · exact .inr (.inr ⟨rest, hhost, by rw [h]; rfl⟩)
  · obtain ⟨-, htake⟩ | ⟨b, hd, htake⟩ | ⟨b, c, bs, hd, htake⟩ := takeDigestByte_cases { s with host := rest } <;>
      rw [h, htake]
    · exact .inl rfl
    · exact .inr (.inl ⟨b, rest, hhost, hd, by simp, by simp⟩)
    · exact .inr (.inl ⟨b, rest, hhost, hd, by simp, by simp⟩)
  · exact .inl (by rw [h])

end Sys2Proof.Machine
end

section
/-! ### A step of a platform (20_memory.md R79) -/

namespace Sys2Proof.Machine.Platform

/-- Replacing an engine replaces it in the list of engines. -/
theorem engines_setEngine (p : Platform) (k : Nat) (s : State) : (p.setEngine k s).engines = p.engines.set k s := by
  cases k <;> rfl

theorem engineBase_setEngine (p : Platform) (k : Nat) (s : State) : (p.setEngine k s).engineBase = p.engineBase := by
  cases k <;> rfl

/-- All that a step of an engine can do on a platform. -/
theorem stepEngine_cases {p p' : Platform} {k : Nat} (h : p.stepEngine k = some (.next p')) :
    ∃ s s', p.engines[k]? = some s ∧ step s = .next s' ∧ p' = p.setEngine k s' := by
  rw [stepEngine] at h
  split at h
  · cases h
  · split at h <;> cases h
    exact ⟨_, _, ‹_›, ‹_›, rfl⟩

end Sys2Proof.Machine.Platform
end

section
/-! ### Memory and ports (20_memory.md): O5, O6, O11, O12, O13, O32, O53, O55 -/

namespace Sys2Proof

open Sys2Proof.Machine Sys2Proof.Safety

/-- Settles O5: it holds. The decoder's inversion gives the items as a word and a payload, and only the command's own
word decodes to its header. -/
theorem decodedItemsAreTheEncoding : Obligations.DecodedItemsAreTheEncoding := by
  intro items i rest h
  obtain ⟨w, hword, rfl, hw⟩ := decode_instr_cases h
  obtain rfl := encodeHeader_of_decodeWord hword
  exact ⟨rfl, hw⟩

/-- Settles O6: it holds, since a command's encoding decodes to it. -/
theorem stepRunsTheDecodedCommand : Obligations.StepRunsTheDecodedCommand :=
  fun _ _ rest hw hd hcmd => step_instr hd (hcmd ▸ decode_encode_append hw rest)

/-- Settles O11: it holds, byte by byte. -/
theorem hostTakesTheDigestInOrder : Obligations.HostTakesTheDigestInOrder := by
  refine fun s rest hne => ⟨fun hhost => ?_, fun k hk hhost => run_takeBytes hk hhost⟩
  obtain ⟨b, bs, hd⟩ := List.exists_cons_of_ne_nil hne
  rw [hd] at hhost ⊢
  exact run_takeDigest hd hhost

/-- Settles O12: it holds. The engine waits for each item, and the step after the last one runs the command. -/
theorem sentCommandIsRun : Obligations.SentCommandIsRun :=
  fun _ _ _ hw hd hcmd hhost => run_sendCommand hw hd hcmd hhost

/-- Settles O13: it holds. Of what a step can do, only FINAL in `ACTIVE` and the host's turn change `dout`. -/
theorem onlyFinalEmitsDigestBytes : Obligations.OnlyFinalEmitsDigestBytes := by
  intro s t h hne
  obtain ⟨-, rfl⟩ | ⟨-, w, rest, -, rfl⟩ | ⟨-, b, rest, -, -, rfl⟩ | ⟨hd, i, rest, hdec, hexec⟩ := step_cases h
  · exact .inr ((hostTurn_dout s).resolve_left hne)
  · exact absurd (by rw [illegalCommand_frame]) hne
  · exact absurd rfl hne
  · obtain ⟨-, -, hdout | ⟨⟨n, ub, rfl⟩, hc, -, -, hv, hdout⟩⟩ := exec_frame hexec
    · exact absurd hdout hne
    · have hlen : t.dout.length = 4 * digestWords s.var := by simp [hdout, hd, digestBytes_length]
      exact .inl ⟨n, ub, rest, t.dout, hdec, hc, hd, rfl, fun h => by rw [hlen, h]; rfl,
        fun h => by rw [hlen, h]; rfl⟩

/-- Settles O32: it holds. Each accumulator word gives four bytes of the digest. -/
theorem digestSerializesTheAccumulator : Obligations.DigestSerializesTheAccumulator := by
  refine fun v h => ⟨?_, fun i j hv hi hj => digestBytes_getElem? v h hv hi hj⟩
  rw [digestBytes_length]
  cases v <;> rfl

/-- Settles O53: it holds, by the frame of every command. -/
theorem commandsLeaveTheHostSideAlone : Obligations.CommandsLeaveTheHostSideAlone := by
  intro i s t h
  obtain ⟨hside, halign, hdout | ⟨⟨n, ub, rfl⟩, -, -, -, hv, hdout⟩⟩ := exec_frame h
  · exact ⟨hside, halign, ⟨[], by rw [hdout, List.append_nil]⟩, fun _ => hdout⟩
  · exact ⟨hside, halign, ⟨_, hdout⟩, fun hne => absurd rfl (hne n ub)⟩

/-- Settles O55: it holds. The step replaces one entry of the list of engines. -/
theorem enginesShareNoState : Obligations.EnginesShareNoState := by
  intro p p' k h
  obtain ⟨s, s', hs, hstep, rfl⟩ := Platform.stepEngine_cases h
  refine ⟨⟨s, s', hs, hstep, ?_⟩, fun j hj => ?_, ?_, p.engineBase_setEngine k s'⟩
  · rw [Platform.engines_setEngine, List.getElem?_set_self (List.getElem?_eq_some_iff.mp hs).1]
  · rw [Platform.engines_setEngine, List.getElem?_set_ne hj.symm]
  · rw [Platform.numEngines, Platform.engines_setEngine, List.length_set, Platform.numEngines]

end Sys2Proof
end

section
/-! ### Which words decode to a command, and which to none (30_encoding.md R83 to R85, R89, R90) -/

namespace Sys2Proof

/-- INIT's pattern fixes `OP` and the reserved bits of R83, and no other bit. -/
theorem initPattern_iff (w : Word) :
    w &&& 0xFFFFFFEF#32 = 0x00000001#32 ↔ opField w = 0x1 ∧ w.extractLsb' 5 27 = 0 := by
  refine ⟨fun h => ⟨extractLsb'_of_and_eq h (by decide), extractLsb'_of_and_eq h (by decide)⟩,
    fun ⟨hop, hreserved⟩ => ?_⟩
  rw [← append_initFields w, ← opField, hop, hreserved]
  change (0#27 ++ w.extractLsb' 4 1 ++ 0x1#4) &&& (0x7FFFFFF#27 ++ 0#1 ++ 0xF#4) = _
  simp only [BitVec.and_append, BitVec.and_zero]
  rfl

/-- UPDATE's pattern fixes `OP` and the reserved bits of R84, and no other bit. -/
theorem updatePattern_iff (w : Word) :
    w &&& 0x000000FF#32 = 0x00000002#32 ↔ opField w = 0x2 ∧ w.extractLsb' 4 4 = 0 := by
  refine ⟨fun h => ⟨extractLsb'_of_and_eq h (by decide), extractLsb'_of_and_eq h (by decide)⟩,
    fun ⟨hop, hreserved⟩ => ?_⟩
  rw [← append_updateFields w, ← opField, hop, hreserved]
  change (lenField w ++ 0#4 ++ 0x2#4) &&& (0#24 ++ 0xF#4 ++ 0xF#4) = _
  simp only [BitVec.and_append, BitVec.and_zero]
  rfl

/-- FINAL's pattern fixes `OP` and the reserved bits of R85, and no other bit. -/
theorem finalPattern_iff (w : Word) :
    w &&& 0xFF00F8FF#32 = 0x00000003#32 ↔
      opField w = 0x3 ∧ w.extractLsb' 24 8 = 0 ∧ w.extractLsb' 11 5 = 0 ∧ w.extractLsb' 4 4 = 0 := by
  refine ⟨fun h => ⟨extractLsb'_of_and_eq h (by decide), extractLsb'_of_and_eq h (by decide),
    extractLsb'_of_and_eq h (by decide), extractLsb'_of_and_eq h (by decide)⟩, fun ⟨hop, hhigh, hmid, hlow⟩ => ?_⟩
  rw [← append_finalFields w, ← opField, hop, hhigh, hmid, hlow]
  change (0#8 ++ ubField w ++ 0#5 ++ nField w ++ 0#4 ++ 0x3#4) &&&
    (0xFF#8 ++ 0#8 ++ 0x1F#5 ++ 0#3 ++ 0xF#4 ++ 0xF#4) = _
  simp only [BitVec.and_append, BitVec.and_zero]
  rfl

theorem decodeWord_of_initPattern {w : Word} (h : w &&& 0xFFFFFFEF#32 = 0x00000001#32) :
    decodeWord w = some (.init (variantField w)) := by
  rw [decodeWord, if_pos h]

theorem decodeWord_of_updatePattern {w : Word} (h : w &&& 0x000000FF#32 = 0x00000002#32) :
    decodeWord w = some (.update (lenField w)) := by
  have hinit : ¬ w &&& 0xFFFFFFEF#32 = 0x00000001#32 := by
    rw [initPattern_iff, ((updatePattern_iff w).mp h).1]
    simp
  rw [decodeWord, if_neg hinit, if_pos h]

theorem decodeWord_of_finalPattern {w : Word} (h : w &&& 0xFF00F8FF#32 = 0x00000003#32) :
    decodeWord w = some (.final (nField w) (ubField w)) := by
  have hop := ((finalPattern_iff w).mp h).1
  have hinit : ¬ w &&& 0xFFFFFFEF#32 = 0x00000001#32 := by
    rw [initPattern_iff, hop]
    simp
  have hupdate : ¬ w &&& 0x000000FF#32 = 0x00000002#32 := by
    rw [updatePattern_iff, hop]
    simp
  rw [decodeWord, if_neg hinit, if_neg hupdate, if_pos h]

theorem decodeWord_eq_init_iff {w : Word} :
    (∃ v, decodeWord w = some (.init v)) ↔ w &&& 0xFFFFFFEF#32 = 0x00000001#32 := by
  refine ⟨fun ⟨v, hv⟩ => ?_, fun h => ⟨_, decodeWord_of_initPattern h⟩⟩
  obtain ⟨hpat, -⟩ | ⟨-, hhdr⟩ | ⟨-, hhdr⟩ := decodeWord_cases hv
  · exact hpat
  · cases hhdr
  · cases hhdr

theorem decodeWord_eq_update_iff {w : Word} :
    (∃ len, decodeWord w = some (.update len)) ↔ w &&& 0x000000FF#32 = 0x00000002#32 := by
  refine ⟨fun ⟨len, hlen⟩ => ?_, fun h => ⟨_, decodeWord_of_updatePattern h⟩⟩
  obtain ⟨-, hhdr⟩ | ⟨hpat, -⟩ | ⟨-, hhdr⟩ := decodeWord_cases hlen
  · cases hhdr
  · exact hpat
  · cases hhdr

theorem decodeWord_eq_final_iff {w : Word} :
    (∃ n ub, decodeWord w = some (.final n ub)) ↔ w &&& 0xFF00F8FF#32 = 0x00000003#32 := by
  refine ⟨fun ⟨n, ub, hfinal⟩ => ?_, fun h => ⟨_, _, decodeWord_of_finalPattern h⟩⟩
  obtain ⟨-, hhdr⟩ | ⟨-, hhdr⟩ | ⟨hpat, -⟩ := decodeWord_cases hfinal
  · cases hhdr
  · cases hhdr
  · exact hpat

/-- An illegal word matches none of the three patterns (R89). -/
theorem decodeWord_eq_none_iff {w : Word} : decodeWord w = none ↔
    ¬ w &&& 0xFFFFFFEF#32 = 0x00000001#32 ∧ ¬ w &&& 0x000000FF#32 = 0x00000002#32 ∧
      ¬ w &&& 0xFF00F8FF#32 = 0x00000003#32 := by
  refine ⟨fun h => ⟨fun hpat => ?_, fun hpat => ?_, fun hpat => ?_⟩, fun ⟨hinit, hupdate, hfinal⟩ => ?_⟩
  · simp [decodeWord_of_initPattern hpat] at h
  · simp [decodeWord_of_updatePattern hpat] at h
  · simp [decodeWord_of_finalPattern hpat] at h
  · rw [decodeWord, if_neg hinit, if_neg hupdate, if_neg hfinal]

/-- `OP` is a command's or reserved (R82, R90). -/
theorem opField_cases (w : Word) : opField w = 0x1 ∨ opField w = 0x2 ∨ opField w = 0x3 ∨
    (opField w = 0x0 ∨ 0x4 ≤ opField w) ∧ opField w ≠ 0x1 ∧ opField w ≠ 0x2 ∧ opField w ≠ 0x3 := by
  generalize opField w = op
  revert op
  decide

end Sys2Proof
end

section
/-! ### The selected bits of FINAL's `UB` (30_encoding.md R88, 42_finalize.md R161) -/

namespace Sys2Proof.Machine

/-- Under `low` the extra bits are the low `N` bits of `UB`, `UB[N-1]` first. -/
theorem extraBits_low_getMsbD {n : BitVec 3} (ub : Byte) {j : Nat} (hj : j < n.toNat) :
    (extraBits .low n ub).getMsbD j = ub.getLsbD (n.toNat - 1 - j) := by
  have hn : n ≠ 0 := by rintro rfl; simp at hj
  have hlt : n.toNat < 8 := n.isLt
  simp only [extraBits, if_neg hn, BitVec.getMsbD, BitVec.getLsbD_shiftLeft, BitVec.getLsbD_ofNat,
    Nat.testBit_mod_two_pow, BitVec.testBit_toNat]
  grind

/-- Under `high` the extra bits are the high `N` bits of `UB`, `UB[7]` first. -/
theorem extraBits_high_getMsbD {n : BitVec 3} (ub : Byte) {j : Nat} (hj : j < n.toNat) :
    (extraBits .high n ub).getMsbD j = ub.getMsbD j := by
  have hn : n ≠ 0 := by rintro rfl; simp at hj
  have hlt : n.toNat < 8 := n.isLt
  have hones : ∀ k < 8, (0xFF#8).getLsbD k = true := by decide
  simp only [extraBits, if_neg hn, BitVec.getMsbD, BitVec.getLsbD_and, BitVec.getLsbD_shiftLeft]
  rw [hones _ (by omega)]
  grind

/-- Two bytes that agree in the selected bits give the same extra bits. -/
theorem extraBits_congr {align : SubbyteAlign} {n : BitVec 3} {ub ub' : Byte}
    (hlow : align = .low → ∀ j < n.toNat, ub.getLsbD j = ub'.getLsbD j)
    (hhigh : align = .high → ∀ j < n.toNat, ub.getMsbD j = ub'.getMsbD j) :
    extraBits align n ub = extraBits align n ub' := by
  refine BitVec.eq_of_getMsbD_eq fun j _ => ?_
  by_cases hj : j < n.toNat
  · cases align with
    | low => rw [extraBits_low_getMsbD ub hj, extraBits_low_getMsbD ub' hj, hlow rfl _ (by omega)]
    | high => rw [extraBits_high_getMsbD ub hj, extraBits_high_getMsbD ub' hj, hhigh rfl j hj]
  · rw [extraBits_getMsbD_of_le align ub (by omega), extraBits_getMsbD_of_le align ub' (by omega)]

/-- A preamble runs its command at the given state only. -/
theorem preamble_congr {u : Bool} {s : State} {k k' : State → Result} (h : k s = k' s) :
    preamble u s k = preamble u s k' := by
  simp only [preamble, h]

/-- FINAL reads `UB` only for the extra bits. -/
theorem exec_final_congr {n : BitVec 3} {ub ub' : Byte} {s : State}
    (h : extraBits s.subbyteAlign n ub = extraBits s.subbyteAlign n ub') :
    exec (.final n ub) s = exec (.final n ub') s := by
  rw [exec_final, exec_final]
  refine preamble_congr ?_
  simp only [finalizeContext, sentinel, h]

end Sys2Proof.Machine
end

section
/-! ### A command at the front of the port, and commands in `FAULT` (30_encoding.md R92, 60_exceptions.md R189) -/

namespace Sys2Proof

theorem wellFormed_update_iff {len : BitVec 24} {p : List Byte} :
    (Instr.update len p).wellFormed = true ↔ p.length = len.toNat := by
  simp [Instr.wellFormed]

end Sys2Proof

namespace Sys2Proof.Machine

/-- In `FAULT` a well-formed command is discarded (R189). -/
theorem exec_fault {i : Instr} {s : State} (hw : i.wellFormed = true) (hc : s.cst = .fault) : exec i s = .next s := by
  cases i with
  | init v => exact Safety.exec_init_fault v hc
  | update len p => rw [exec_update_wellFormed s (wellFormed_update_iff.mp hw), preamble_fault hc]
  | final n ub => rw [exec_final, preamble_fault hc]

/-- In `FAULT` payload attached to a command is discarded with it unless it is an UPDATE (R92). -/
theorem discardsPayload_fault_eq_false_iff (i : Instr) :
    discardsPayload i .fault = false ↔ ∃ len p, i = .update len p := by
  cases i <;> simp [discardsPayload]

end Sys2Proof.Machine

namespace Sys2Proof.Safety

open Sys2Proof.Machine

/-- From a state that meets the invariant a step completes the well-formed command at the front of the port; the port
then remembers whether bytes behind it are discarded (R92), and only FINAL leaves a digest in transit. -/
theorem Inv.step_encode {s : State} {i : Instr} {rest : List PortItem} (hinv : Inv s) (hw : i.wellFormed = true)
    (hd : s.dout = []) (hcmd : s.cmd = encode i ++ rest) :
    ∃ t, step s = .next t ∧ t.cmd = rest ∧ t.discarding = discardsPayload i s.cst ∧
      ((∃ n ub, i = .final n ub) ∨ t.dout = []) := by
  obtain ⟨t, ht⟩ := ((inv_iff.mp hinv).1.withCmd rest (discardsPayload i s.cst)).exec_next hw
  obtain ⟨⟨hcmd', hdisc, -⟩, -, hdout⟩ := exec_frame ht
  refine ⟨t, (step_instr hd (hcmd ▸ decode_encode_append hw rest)).trans ht, hcmd'.symm, hdisc.symm, ?_⟩
  obtain hdout | ⟨hfinal, -⟩ := hdout
  · exact .inr (hdout.trans hd)
  · exact .inl hfinal

end Sys2Proof.Safety
end

section
/-! ### Splitting long data (30_encoding.md R94, R96) -/

namespace Sys2Proof.Machine.Assembler

/-- Data that fits one chunk is one chunk. -/
theorem splitData_of_le {chunk : Nat} (fuel : Nat) {data : List Byte} (h : data.length ≤ chunk) :
    splitData chunk fuel data = [data] := by
  cases fuel with
  | zero => rfl
  | succ fuel => rw [splitData, if_pos h]

/-- Longer data is a full chunk and the chunks of the rest. -/
theorem splitData_of_lt {chunk fuel : Nat} {data : List Byte} (h : chunk < data.length) :
    splitData chunk (fuel + 1) data = data.take chunk :: splitData chunk fuel (data.drop chunk) := by
  rw [splitData, if_neg (by omega)]

theorem splitData_ne_nil (chunk fuel : Nat) (data : List Byte) : splitData chunk fuel data ≠ [] := by
  cases fuel with
  | zero => simp [splitData]
  | succ fuel => rw [splitData]; split <;> simp

/-- The chunks in order are the data; none is longer than a chunk, and all but the last are full. -/
theorem splitData_spec {chunk : Nat} (hchunk : 0 < chunk) (fuel : Nat) (data : List Byte)
    (hfuel : data.length ≤ fuel) :
    (splitData chunk fuel data).flatten = data ∧ (∀ c ∈ splitData chunk fuel data, c.length ≤ chunk) ∧
      ∀ c ∈ (splitData chunk fuel data).dropLast, c.length = chunk := by
  induction fuel generalizing data with
  | zero =>
    have hle : data.length ≤ chunk := by omega
    rw [splitData_of_le 0 hle]
    simpa using hle
  | succ fuel ih =>
    obtain hle | hlt := le_or_gt data.length chunk
    · rw [splitData_of_le _ hle]
      simpa using hle
    · obtain ⟨hflat, hle, hfull⟩ := ih (data.drop chunk) (by rw [List.length_drop]; omega)
      have htake : (data.take chunk).length = chunk := List.length_take_of_le hlt.le
      rw [splitData_of_lt hlt, List.dropLast_cons_of_ne_nil (splitData_ne_nil _ _ _)]
      refine ⟨by rw [List.flatten_cons, hflat, List.take_append_drop], ?_, ?_⟩
      · exact List.forall_mem_cons.mpr ⟨htake.le, hle⟩
      · exact List.forall_mem_cons.mpr ⟨htake, hfull⟩

theorem updateOf_payload (data : List Byte) : (updateOf data).payload = data := rfl

theorem updateOf_wellFormed {data : List Byte} (h : data.length ≤ Config.maxChunk) :
    (updateOf data).wellFormed = true := wellFormed_update_iff.mpr (Safety.updateOf_length h)

theorem updates_of_le {data : List Byte} (h : data.length ≤ Config.maxChunk) : updates data = [updateOf data] := by
  rw [updates, splitData_of_le _ h, List.map_singleton]

theorem updates_spec (data : List Byte) : (updates data).flatMap Instr.payload = data ∧
    (∀ i ∈ updates data, i.wellFormed = true ∧ ∃ len p, i = .update len p) ∧
    ∀ i ∈ (updates data).dropLast, i.payload.length = Config.maxChunk := by
  obtain ⟨hflat, hle, hfull⟩ := splitData_spec (chunk := Config.maxChunk) (by decide) data.length data le_rfl
  refine ⟨?_, fun i hi => ?_, fun i hi => ?_⟩
  · rw [updates, List.flatMap_map]
    simpa [updateOf_payload] using hflat
  · obtain ⟨c, hc, rfl⟩ := List.mem_map.mp hi
    exact ⟨updateOf_wellFormed (hle c hc), _, _, rfl⟩
  · rw [updates, ← List.map_dropLast] at hi
    obtain ⟨c, hc, rfl⟩ := List.mem_map.mp hi
    exact hfull c hc

end Sys2Proof.Machine.Assembler
end

section
/-! ### Reading back what disassembly prints (30_encoding.md R93 to R95, R98) -/

namespace Sys2Proof.Machine.Assembler

/-- A character that ends no name and starts no string. -/
def isPlain (c : Char) : Bool := decide (c ≠ ';' ∧ c ≠ ' ' ∧ c ≠ ',' ∧ c ≠ doubleQuote ∧ c ≠ apostrophe)

/-- A name or a number: plain characters, at least one. -/
def isWord (cs : List Char) : Bool := !cs.isEmpty && cs.all isPlain

theorem lex_idle_plain {c : Char} (h : isPlain c = true) (cs : List Char) :
    lex .idle (c :: cs) = lex (.name [c]) cs := by
  obtain ⟨h1, h2, h3, h4, -⟩ := of_decide_eq_true h
  rw [lex, if_neg h1, if_neg h2, if_neg h3, if_neg h4]

theorem lex_name_plain {c : Char} (h : isPlain c = true) (acc cs : List Char) :
    lex (.name acc) (c :: cs) = lex (.name (c :: acc)) cs := by
  obtain ⟨h1, h2, h3, -, h5⟩ := of_decide_eq_true h
  rw [lex, if_neg h1, if_neg h2, if_neg h3, if_neg fun h => h5 h.1]

theorem lex_name_append {w : List Char} (h : w.all isPlain = true) (acc cs : List Char) :
    lex (.name acc) (w ++ cs) = lex (.name (w.reverse ++ acc)) cs := by
  induction w generalizing acc with
  | nil => rfl
  | cons c w ih =>
    obtain ⟨hc, hw⟩ := Bool.and_eq_true_iff.mp h
    rw [List.cons_append, lex_name_plain hc, ih hw, List.reverse_cons, List.append_assoc]
    rfl

/-- A word is collected whole. -/
theorem lex_word_append {w : List Char} (h : isWord w = true) (cs : List Char) :
    lex .idle (w ++ cs) = lex (.name w.reverse) cs := by
  cases w with
  | nil => simp [isWord] at h
  | cons c w =>
    obtain ⟨hc, hw⟩ : isPlain c = true ∧ w.all isPlain = true := by simpa [isWord] using h
    rw [List.cons_append, lex_idle_plain hc, lex_name_append hw, List.reverse_cons]

theorem lex_word {w : List Char} (h : isWord w = true) : lex .idle w = some [.name w] := by
  simpa [lex] using lex_word_append h []

theorem lex_word_space {w : List Char} (h : isWord w = true) (cs : List Char) :
    lex .idle (w ++ ' ' :: cs) = (lex .idle cs).map (Token.name w :: ·) := by
  simp [lex_word_append h, lex]

theorem lex_word_comma {w : List Char} (h : isWord w = true) (cs : List Char) :
    lex .idle (w ++ ',' :: cs) = (lex .idle cs).map fun ts => .name w :: .comma :: ts := by
  simp [lex_word_append h, lex]

/-! #### Hexadecimal digits -/

theorem hexValue_hexDigit {k : Nat} (hk : k < 16) : hexValue (hexDigit k) = some k := by
  revert k
  decide

theorem isPlain_hexDigit {k : Nat} (hk : k < 16) : isPlain (hexDigit k) = true := by
  revert k
  decide

theorem hexDigits_lt (b : Byte) : b.toNat / 16 < 16 ∧ b.toNat % 16 < 16 := by
  have hb : b.toNat < 2 ^ 8 := b.isLt
  omega

theorem ofNat_hexDigits (b : Byte) : BitVec.ofNat 8 (16 * (b.toNat / 16) + b.toNat % 16) = b := by
  rw [Nat.div_add_mod, BitVec.ofNat_toNat, BitVec.setWidth_eq]

/-- In a hex byte list a digit is not taken for a separator or the end. -/
theorem hexDigit_ne {k : Nat} (hk : k < 16) : hexDigit k ≠ ' ' ∧ hexDigit k ≠ apostrophe := by
  obtain ⟨-, h2, -, -, h5⟩ := of_decide_eq_true (isPlain_hexDigit hk)
  exact ⟨h2, h5⟩

theorem lex_hexByte (acc : List Byte) (b : Byte) (cs : List Char) :
    lex (.hexList acc none) (hexByte b ++ cs) = lex (.hexList (b :: acc) none) cs := by
  obtain ⟨hhi, hlo⟩ := hexDigits_lt b
  obtain ⟨hspace, hend⟩ := hexDigit_ne hhi
  have hfirst : lex (.hexList acc none) (hexByte b ++ cs) =
      lex (.hexList acc (some (b.toNat / 16))) (hexDigit (b.toNat % 16) :: cs) := by
    rw [hexByte, List.cons_append, lex, if_neg hspace, if_neg hend, hexValue_hexDigit hhi]
    rfl
  rw [hfirst, lex, if_neg (hexDigit_ne hlo).1, hexValue_hexDigit hlo]
  simp only [ofNat_hexDigits]

theorem lex_hexBytes (acc data : List Byte) (cs : List Char) :
    lex (.hexList acc none) (data.flatMap hexByte ++ cs) = lex (.hexList (data.reverse ++ acc) none) cs := by
  induction data generalizing acc with
  | nil => rfl
  | cons b data ih =>
    rw [List.flatMap_cons, List.append_assoc, lex_hexByte, ih, List.reverse_cons, List.append_assoc]
    rfl

/-- A hex byte list is read as its bytes (R94). -/
theorem lex_hexData (data : List Byte) : lex .idle (hexData data) = some [.data data] := by
  have hend : lex (.hexList data.reverse none) [apostrophe] = some [.data data] := by
    simp [lex, show apostrophe ≠ ' ' by decide]
  have hopen (cs : List Char) : lex .idle ('x' :: apostrophe :: cs) = lex (.hexList [] none) cs := by
    rw [lex_idle_plain (by decide), lex, if_neg (by decide), if_neg (by decide), if_neg (by decide), if_pos ⟨rfl, rfl⟩]
  rw [hexData, hopen, lex_hexBytes, List.append_nil, hend]

/-! #### FINAL's numbers -/

theorem isWord_hexDigit {k : Nat} (hk : k < 16) : isWord [hexDigit k] = true := by
  simp [isWord, isPlain_hexDigit hk]

theorem isWord_hexUb (ub : Byte) : isWord ('0' :: 'x' :: hexByte ub) = true := by
  obtain ⟨hhi, hlo⟩ := hexDigits_lt ub
  simp [isWord, hexByte, isPlain_hexDigit hhi, isPlain_hexDigit hlo, show isPlain '0' = true by decide,
    show isPlain 'x' = true by decide]

theorem numberN_hexDigit (n : BitVec 3) : numberN [hexDigit n.toNat] = some n := by
  revert n
  decide

theorem numberUb_hexByte (ub : Byte) : numberUb ('0' :: 'x' :: hexByte ub) = some ub := by
  obtain ⟨hhi, hlo⟩ := hexDigits_lt ub
  have hub : ub.toNat ≤ 255 := Nat.le_of_lt_succ ub.isLt
  have hvalue : number ('0' :: 'x' :: hexByte ub) = some ub.toNat := by
    simp [number, hexByte, digits, hexValue_hexDigit hhi, hexValue_hexDigit hlo, Nat.div_add_mod]
  simp [numberUb, hvalue, hub]

/-! #### Disassembly of each command, read back -/

theorem parseLine_disassemble_init (v : Variant) : parseLine (disassemble (.init v)) = some (.init v) := by
  cases v <;> decide

theorem parseLine_disassemble_update (len : BitVec 24) (p : List Byte) :
    parseLine (disassemble (.update len p)) = some (.update p) := by
  rw [parseLine, disassemble, lex_word_space (by decide), lex_hexData]
  rfl

theorem parseLine_disassemble_final {n : BitVec 3} {ub : Byte} (h : ¬(n = 0 ∧ ub = 0)) :
    parseLine (disassemble (.final n ub)) = some (.final n ub) := by
  have hn : n.toNat < 8 := n.isLt
  have hub : lex .idle (' ' :: '0' :: 'x' :: hexByte ub) = some [.name ('0' :: 'x' :: hexByte ub)] :=
    lex_word (isWord_hexUb ub)
  have hoperands := lex_word_comma (isWord_hexDigit (k := n.toNat) (by omega)) (' ' :: '0' :: 'x' :: hexByte ub)
  rw [List.singleton_append, hub] at hoperands
  rw [parseLine, disassemble, if_neg h, lex_word_space (by decide), hoperands]
  simp [parseTokens, numberN_hexDigit, numberUb_hexByte]

theorem updateOf_eq {len : BitVec 24} {p : List Byte} (h : p.length = len.toNat) : updateOf p = .update len p := by
  rw [updateOf, h, BitVec.ofNat_toNat, BitVec.setWidth_eq]

theorem assemble_disassemble {i : Instr} (hw : i.wellFormed = true) : assemble (disassemble i) = some [i] := by
  cases i with
  | init v => rw [assemble, parseLine_disassemble_init]; rfl
  | update len p =>
    have hp := wellFormed_update_iff.mp hw
    have hfits : p.length ≤ Config.maxChunk := hp ▸ Nat.le_of_lt_succ len.isLt
    rw [assemble, parseLine_disassemble_update, Option.map_some, Asm.expand, updates_of_le hfits, updateOf_eq hp]
  | final n ub =>
    by_cases h : n = 0 ∧ ub = 0
    · obtain ⟨rfl, rfl⟩ := h
      decide
    · rw [assemble, parseLine_disassemble_final h]
      rfl

end Sys2Proof.Machine.Assembler
end

section
/-! ### Encoding (30_encoding.md): O1, O2, O3, O4, O7, O9, O33, O42, O56, O57, O58 -/

namespace Sys2Proof

open Sys2Proof.Machine Sys2Proof.Safety

/-- Settles O4: it holds. The word decodes to the command's fields, and the payload reader takes the payload whole. -/
theorem decodeOfEncodeGivesTheCommandBack : Obligations.DecodeOfEncodeGivesTheCommandBack :=
  fun _ rest hw => decode_encode_append hw rest

/-- Settles O1: it holds, by decoding each word. -/
theorem decodesTheSpecsWords : Obligations.DecodesTheSpecsWords := by
  unfold Obligations.DecodesTheSpecsWords
  decide

/-- Settles O2: it holds. A word with `OP` 1, 2 or 3 matches its command's pattern unless a reserved bit is set. -/
theorem illegalWordsAreExactlyTheReservedOnes : Obligations.IllegalWordsAreExactlyTheReservedOnes := by
  intro w
  rw [decodeWord_eq_none_iff, initPattern_iff, updatePattern_iff, finalPattern_iff]
  obtain hop | hop | hop | ⟨hreserved, h1, h2, h3⟩ := opField_cases w
  · simp [hop]
  · simp [hop]
  · simp [hop]
  · exact iff_of_true ⟨fun h => h1 h.1, fun h => h2 h.1, fun h => h3 h.1⟩ (.inl hreserved)

/-- Settles O3: it holds. Each pattern fixes its own `OP`, so the order in which they are tried does not matter. -/
theorem commandPatternsDifferInOp : Obligations.CommandPatternsDifferInOp :=
  fun w => ⟨decodeWord_eq_init_iff, decodeWord_eq_update_iff, decodeWord_eq_final_iff,
    fun v h => ((initPattern_iff w).mp (decodeWord_eq_init_iff.mp ⟨v, h⟩)).1,
    fun len h => ((updatePattern_iff w).mp (decodeWord_eq_update_iff.mp ⟨len, h⟩)).1,
    fun n ub h => ((finalPattern_iff w).mp (decodeWord_eq_final_iff.mp ⟨n, ub, h⟩)).1⟩

/-- Settles O33: it holds. FINAL reads `UB` for the extra bits alone, and those are the selected bits. -/
theorem unselectedBitsOfUbAreIgnored : Obligations.UnselectedBitsOfUbAreIgnored :=
  fun _ _ _ _ hlow hhigh => exec_final_congr (extraBits_congr hlow hhigh)

/-- Settles O56: it holds, chunk by chunk of the split data. -/
theorem longUpdateSplitsTheData : Obligations.LongUpdateSplitsTheData := by
  intro data
  obtain ⟨hpayload, hupdate, hfull⟩ := Assembler.updates_spec data
  exact ⟨hpayload, hupdate, hfull, Assembler.updates_of_le⟩

/-- Settles O57: it holds. The line's names, numbers and bytes are read back one after another. -/
theorem assemblyOfDisassemblyGivesTheCommandBack : Obligations.AssemblyOfDisassemblyGivesTheCommandBack :=
  fun _ hw => Assembler.assemble_disassemble hw

/-- Settles O58: it holds. The UPDATE completes, and the port does not discard bytes behind one. -/
theorem overlongPayloadIsRefused : Obligations.OverlongPayloadIsRefused := by
  intro s len p b rest hinv hd hp hcmd
  obtain ⟨t, hstep, hrest, hdisc, ⟨n, ub, h⟩ | hdout⟩ := hinv.step_encode (wellFormed_update_iff.mpr hp) hd hcmd
  · cases h
  · rw [run_succ 1 hstep, run_one, step_strayByte hdout (hrest ▸ decode_byte b rest)]
    exact strayByte_refused hdisc

/-- Settles O7: it holds, by the two things an ill-formed word can do. -/
theorem illegalWordRaisesIllegalCommand : Obligations.IllegalWordRaisesIllegalCommand := by
  refine ⟨rfl, fun s w rest hw hd hcmd => ?_⟩
  rw [step_illegal hd (hcmd ▸ decode_illegal rest hw)]
  obtain ⟨hc, h⟩ | ⟨hc, h⟩ := illegalCommand_cases { s with cmd := rest, discarding := true }
  · exact ⟨fun hne => absurd hc hne, fun _ => by rw [h]⟩
  · exact ⟨fun _ => by rw [h]; rfl, fun hfault => absurd hfault hc⟩

/-- Settles O9: it holds, by the two values of the port's memory. -/
theorem strayPayloadByteIsRefusedOrDiscarded : Obligations.StrayPayloadByteIsRefusedOrDiscarded := by
  intro s b rest hd hcmd
  rw [step_strayByte hd (hcmd ▸ decode_byte b rest)]
  exact ⟨fun h => strayByte_refused h, fun h => strayByte_discarded h⟩

/-- Settles O42: it holds, since in `FAULT` neither a command nor an ill-formed word changes the state. -/
theorem faultedEngineDiscardsEveryTransaction : Obligations.FaultedEngineDiscardsEveryTransaction := by
  refine fun s hc => ⟨fun i hw => exec_fault hw hc, fun hd i rest hdec => ?_, fun hd w rest hdec => ?_⟩
  · obtain ⟨-, -, -, hw⟩ := decode_instr_cases hdec
    exact ⟨discardsPayload i s.cst, (step_instr hd hdec).trans (exec_fault hw hc),
      hc ▸ discardsPayload_fault_eq_false_iff i⟩
  · rw [step_illegal hd hdec]
    obtain ⟨-, h⟩ | ⟨hne, -⟩ := illegalCommand_cases { s with cmd := rest, discarding := true }
    · rw [h]
    · exact absurd hc hne

end Sys2Proof
end

section
/-! ### The buffered bytes of a context (10_state.md R33, R47) -/

namespace Sys2Proof.Safety

open Sys2Proof.Machine Sys2Proof.Machine.Reference

/-- A buffer's valid bytes in arrival order are the bytes it holds. -/
theorem HoldsBytes.filterMap_toList {buf : Vector (Option Byte) 64} {p : List Byte} (hb : HoldsBytes buf p)
    (hp : p.length ≤ 64) : buf.toList.filterMap id = p := by
  have hlist : buf.toList = p.map some ++ List.replicate (64 - p.length) none := by
    refine List.ext_getElem (by simp; omega) fun i hi _ => ?_
    have hi' := hb i (by simpa using hi)
    grind
  simp [hlist, List.filterMap_append]

/-- A buffer whose valid bytes are those below `n` holds `n` bytes. -/
theorem exists_holdsBytes {buf : Vector (Option Byte) 64} {n : Nat} (hn : n ≤ 64)
    (hv : ∀ (i : Nat) (hi : i < 64), (buf[i]).isSome ↔ i < n) : ∃ p, p.length = n ∧ HoldsBytes buf p := by
  refine ⟨(buf.toList.take n).map (·.getD 0), by simpa using hn, fun i hi => ?_⟩
  have hin := hv i hi
  cases hbyte : buf[i] with
  | none =>
    have hin : n ≤ i := by simpa [hbyte] using hin
    simp [hin]
  | some b =>
    have hin : i < n := by simpa [hbyte] using hin
    simp [hin, hi, hbyte]

theorem Held.holdsBytes_buffered {s : State} {n : Fin 64} (e : Held s) (hn : s.blen = some n) :
    (buffered s).length = n.val ∧ HoldsBytes s.buf (buffered s) := by
  obtain ⟨p, hlen, hb⟩ := exists_holdsBytes n.isLt.le fun i hi => e.valid n hn ⟨i, hi⟩
  have hp : buffered s = p := hb.filterMap_toList (hlen ▸ n.isLt.le)
  exact hp ▸ ⟨hlen, hb⟩

/-- A held context is what absorbing its buffered bytes from its accumulator leaves. -/
theorem Held.absorbed {s : State} {h : Vector Word 8} {n : Fin 64} (e : Held s) (hh : s.h = some h)
    (hn : s.blen = some n) : Absorbed h (buffered s) s := by
  obtain ⟨hlen, hb⟩ := e.holdsBytes_buffered hn
  have hshort : (buffered s).length < 64 := hlen ▸ n.isLt
  refine ⟨by rw [blocks_of_short hshort, hh, List.foldl_nil], ?_, by rwa [remainder_of_short hshort]⟩
  simp only [hn, hlen, Nat.mod_eq_of_lt n.isLt]

theorem Absorbed.buffered_eq {h0 : Vector Word 8} {m : List Byte} {s : State} (a : Absorbed h0 m s) :
    buffered s = remainder m :=
  a.buf.filterMap_toList (by rw [remainder_length]; omega)

/-- FINAL on a held context compresses the blocks of its padded end (R160, R164). -/
theorem exec_final_held {s : State} {h : Vector Word 8} {k : Fin 64} {tb : BitVec 64} (n : BitVec 3) (ub : Byte)
    (hc : s.cst = .active) (e : Held s) (hh : s.h = some h) (hk : s.blen = some k) (ht : s.tbits = some tb) :
    exec (.final n ub) s = .next { clearContext (sendDigest (digestBytes s.var
      ((blocks (paddedEnd (buffered s) (sentinel s.subbyteAlign n ub) (lengthValue tb n))).foldl compress h)) s)
        with cst := .done } := by
  obtain ⟨hlen, -⟩ := e.holdsBytes_buffered hk
  have hshort : (buffered s).length < 64 := hlen ▸ k.isLt
  rw [execFinal_active hc, finalizeContext_absorbed n ub (e.absorbed hh hk) ht, outcomeOf_ok,
    remainder_of_short hshort, blocks_of_short hshort, List.foldl_nil]

end Sys2Proof.Safety
end

section
/-! ### Two-tier absorption and chunks (40_init_update.md R114, R115) -/

namespace Sys2Proof.Machine.Reference

/-- The two-tier strategy compresses the whole blocks of the buffered bytes and the input, and leaves the bytes after
them: the bytes that fill the buffer make the first block, and behind it the input is cut as from its start. -/
theorem twoTier_eq (h : Vector Word 8) {q : List Byte} (p : List Byte) (hq : q.length < 64) :
    twoTier h q p = ((blocks (q ++ p)).foldl compress h, remainder (q ++ p)) := by
  by_cases hshort : q.length + p.length < 64
  · have hlen : (q ++ p).length < 64 := by rwa [List.length_append]
    rw [twoTier, if_pos hshort, blocks_of_short hlen, remainder_of_short hlen, List.foldl_nil]
  · have hfill : (q ++ p.take (64 - q.length)).length = 64 := by
      rw [List.length_append, List.length_take]
      omega
    have hsplit : q ++ p = (q ++ p.take (64 - q.length)) ++ p.drop (64 - q.length) := by
      rw [List.append_assoc, List.take_append_drop]
    rw [twoTier, if_neg hshort, hsplit, blocks_append, remainder_append (q ++ p.take (64 - q.length)),
      remainder_of_length_64 hfill, blocks_of_length_64 hfill]
    rfl

end Sys2Proof.Machine.Reference

namespace Sys2Proof.Safety

open Sys2Proof.Machine

/-- Absorbing a byte neither reads nor writes `TBITS` (R113). -/
theorem absorbByte_withTbits {b : Byte} {s t : State} (tb : Option (BitVec 64)) (h : absorbByte b s = .ok t) :
    absorbByte b { s with tbits := tb } = .ok { t with tbits := tb } := by
  obtain ⟨n, hroom, hn, rfl⟩ | ⟨n, hv, block, hn63, hn, hh, hblock, rfl⟩ := absorbByte_cases h
  · simp [absorbByte, hn, hroom]
  · have hroom : ¬ n.val + 1 < 64 := by omega
    simp [absorbByte, compressFullBuffer, hn, hroom, hh, hblock]

theorem absorbBytes_withTbits {p : List Byte} {s t : State} (tb : Option (BitVec 64)) (h : absorbBytes p s = .ok t) :
    absorbBytes p { s with tbits := tb } = .ok { t with tbits := tb } := by
  induction p generalizing s with
  | nil =>
    obtain rfl : s = t := Except.ok.inj h
    rfl
  | cons b bs ih =>
    obtain ⟨u, hu, h⟩ := except_bind_eq_ok h
    rw [absorbBytes_cons, absorbByte_withTbits tb hu, except_bind_ok, ih h]

/-- UPDATEs of chunks absorb the chunks' bytes one after another and count them all: where the bytes are cut does not
matter (R115). -/
theorem runCommands_updates {s t : State} {tb : BitVec 64} {chunks : List (List Byte)}
    (hchunks : ∀ c ∈ chunks, c.length ≤ Config.maxChunk) (hc : s.cst = .active) (ht : s.tbits = some tb)
    (hok : absorbBytes chunks.flatten s = .ok t) :
    runCommands (chunks.map Assembler.updateOf) s =
      .next { t with tbits := some (tb + BitVec.ofNat 64 (8 * chunks.flatten.length)) } := by
  induction chunks generalizing s t tb with
  | nil =>
    obtain rfl : s = t := Except.ok.inj hok
    simp [runCommands, ← ht]
  | cons c cs ih =>
    obtain ⟨hlen, hcs⟩ := List.forall_mem_cons.mp hchunks
    rw [List.flatten_cons, absorbBytes_append] at hok
    obtain ⟨u, hu, hok⟩ := except_bind_eq_ok hok
    have hframe := absorbBytes_frame hu
    have hexec : exec (Assembler.updateOf c) s =
        .next { u with tbits := some (tb + BitVec.ofNat 64 (8 * c.length)) } := by
      have hut : u.tbits = some tb := by rw [hframe, ht]
      rw [Assembler.updateOf, execUpdate_active hc (updateOf_length hlen), absorbChunk, hu, except_bind_ok,
        countBytes_some _ hut, outcomeOf_ok, ← updateOf_length hlen]
    rw [List.map_cons, runCommands_cons_next _ hexec,
      ih hcs (by rw [hframe]; exact hc) rfl (absorbBytes_withTbits _ hok), List.flatten_cons, List.length_append,
      Nat.mul_add, BitVec.ofNat_add, BitVec.add_assoc]

end Sys2Proof.Safety
end

section
/-! ### INIT and UPDATE (40_init_update.md): O17 to O21, O23, O24, O35 to O38 -/

namespace Sys2Proof

open Sys2Proof.Machine Sys2Proof.Safety Sys2Proof.Machine.Reference

/-- Settles O20: it holds. With the last byte in place the buffer's 64 bytes are the block. -/
theorem fullBufferIsCompressed : Obligations.FullBufferIsCompressed := by
  intro s b h block hh hn hbuf hlast
  have hfull : fullBlock (s.buf.set 63 (some b)) = some block := fullBlock_eq_some fun i hi => by
    by_cases hi63 : i = 63
    · simp [hi63, ← hlast]
    · rw [Vector.getElem_set_ne _ _ (Ne.symm hi63)]
      exact hbuf ⟨i, hi⟩ (show i < 63 by omega)
  simp [absorbByte, compressFullBuffer, hn, hh, hfull, emptyBuf]

/-- Settles O21: it holds. A held context is what absorbing its buffered bytes leaves, and the payload follows them. -/
theorem updateAbsorbsItsPayload : Obligations.UpdateAbsorbsItsPayload := by
  intro s len p h n tb hc e hh hn ht hp
  obtain ⟨hlen, -⟩ := e.holdsBytes_buffered hn
  obtain ⟨t, hok, a, ht'⟩ := absorbChunk_absorbed len p (e.absorbed hh hn) ht
  have htotal : (buffered s ++ p).length = n.val + p.length := by rw [List.length_append, hlen]
  refine ⟨t, by rw [execUpdate_active hc hp, hok, outcomeOf_ok], a.h, ?_, ⟨_, a.blen, ?_⟩, ⟨_, ht', ?_⟩,
    absorbChunk_frame hok⟩
  · rw [a.buffered_eq, remainder, htotal]
  · rw [← htotal]
  · rw [BitVec.toNat_add, BitVec.toNat_ofNat, ← hp, Nat.add_mod_mod]

/-- Settles O23: it holds. Both leave what the whole blocks of the buffered bytes and the input make of the accumulator,
and the bytes after them. -/
theorem twoTierAbsorptionAgrees : Obligations.TwoTierAbsorptionAgrees := by
  intro s t p h e hh hok
  obtain ⟨n, tb, hn, -⟩ := e.counts
  obtain ⟨hlen, -⟩ := e.holdsBytes_buffered hn
  obtain ⟨t', hok', a⟩ := absorbBytes_absorbed p (e.absorbed hh hn)
  obtain rfl : t' = t := Except.ok.inj (hok'.symm.trans hok)
  rw [twoTier_eq h p (hlen ▸ n.isLt)]
  exact ⟨a.h, a.buffered_eq, ⟨_, a.blen, (remainder_length _).symm⟩,
    (congrArg State.tbits (absorbBytes_frame hok) :)⟩

/-- Settles O24: it holds. The state after the UPDATEs depends on the bytes of all chunks alone. -/
theorem chunkingDoesNotMatter : Obligations.ChunkingDoesNotMatter := by
  intro s c c' hc e hlen hlen' hcc
  obtain ⟨hv, n, tb, a, ht, -⟩ := e.absorbing
  obtain ⟨t, -, -, hok, -⟩ := absorbBytes_absorbing c.flatten a
  refine ⟨_, runCommands_updates hlen hc ht hok, ?_⟩
  rw [hcc] at hok ⊢
  exact runCommands_updates hlen' hc ht hok

/-- Settles O35: it holds. The context represents the chunks' bytes, and the padded end is one block or two. -/
theorem numberOfCompressions : Obligations.NumberOfCompressions := by
  refine ⟨fun v s chunks hc hchunks => ?_, fun s n ub h k tb hc e hh hk ht => ?_⟩
  · obtain ⟨t, hrun, r, -⟩ := runCommands_updates_represents hchunks (initContext_represents v s)
    exact ⟨t, _, (runCommands_cons_next _ (exec_init_next v hc)).trans hrun, r.h, by simp [blocks], r.blen, rfl⟩
  · obtain ⟨hlen, -⟩ := e.holdsBytes_buffered hk
    refine ⟨_, exec_final_held n ub hc e hh hk ht, fun hfew => ?_, fun hmany => ?_⟩
    · rw [blocks_of_length_64 (paddedEnd_length_64 _ _ (by omega))]
      rfl
    · rw [blocks_of_length_128 (paddedEnd_length_128 _ _ (by omega) (by omega))]
      rfl

/-- Settles O37: it holds. UPDATE writes the context fields only. -/
theorem updateAppendsToTheMessage : Obligations.UpdateAppendsToTheMessage := by
  intro s v m len p r hp
  obtain ⟨t, hexec, r', hframe⟩ := exec_update_represents r hp
  refine ⟨t, hexec, r', ?_⟩
  rw [hframe]
  exact ⟨rfl, rfl, rfl, .refl s⟩

/-- Settles O38: it holds. The engine's padding is the standard's, bit by bit. -/
theorem finalEmitsTheStandardDigest : Obligations.FinalEmitsTheStandardDigest :=
  fun _ _ _ n ub r => ⟨_, exec_final_represents n ub r, rfl, rfl⟩

/-- Settles O17: it holds, by INIT's two cases. -/
theorem initSetsUpTheContext : Obligations.InitSetsUpTheContext := by
  refine ⟨fun v s hc => ?_, fun v s hc => exec_init_fault v hc, by decide, by decide, fun v v' s t h => ?_⟩
  · rw [exec_init_next v hc]
    cases v <;> rfl
  · obtain ⟨-, rfl⟩ | ⟨hc, rfl⟩ := execInit_cases h
    · rfl
    · rw [exec_init_next v' hc, exec_init_next v' (by simp)]
      rfl

/-- Settles O18: it holds. INIT keeps the fault code and the parameter alone. -/
theorem initForgetsTheContext : Obligations.InitForgetsTheContext := by
  intro v s s' t t' hfcode halign hc hc' h h'
  obtain rfl := Host.Outcome.next.inj ((exec_init_next v hc).symm.trans h)
  obtain rfl := Host.Outcome.next.inj ((exec_init_next v hc').symm.trans h')
  exact ⟨rfl, rfl, rfl, rfl, rfl, rfl, hfcode, halign⟩

/-- Settles O19: it holds, by the room for the byte. -/
theorem absorbedByteGoesToTheBuffer : Obligations.AbsorbedByteGoesToTheBuffer := by
  intro s b n hroom hn
  simp [absorbByte, hn, hroom]

/-- Settles O36: it holds. The accumulator is the initial vector, and nothing is buffered or counted. -/
theorem initRepresentsTheEmptyMessage : Obligations.InitRepresentsTheEmptyMessage :=
  fun v s hc => ⟨initContext v s, exec_init_next v hc, initContext_represents v s⟩

end Sys2Proof
end

section
/-! ### Words bit by bit (41_compression.md R130, R135, R136) -/

namespace Sys2Proof.Machine

/-- The bits of `x` that the right shift keeps go to the bottom, those the left shift keeps come round to the top. -/
theorem rotr_getLsbD (x : Word) {n i : Nat} (hn : 0 < n) (hn32 : n < 32) (hi : i < 32) :
    (rotr x n).getLsbD i = x.getLsbD ((i + n) % 32) := by
  rw [rotr, BitVec.getLsbD_or, BitVec.getLsbD_ushiftRight, BitVec.getLsbD_shiftLeft]
  by_cases hlow : i + n < 32
  · have htop : i < 32 - n := by omega
    simp [htop, Nat.add_comm n i, Nat.mod_eq_of_lt hlow]
  · have htop : ¬ i < 32 - n := by omega
    have hround : i - (32 - n) = (i + n) % 32 := by omega
    simp [BitVec.getLsbD_of_ge x (n + i) (by omega), hi, htop, hround]

theorem ch_getLsbD (x y z : Word) {i : Nat} (hi : i < 32) :
    (ch x y z).getLsbD i = if x.getLsbD i then y.getLsbD i else z.getLsbD i := by
  rw [ch, BitVec.getLsbD_xor, BitVec.getLsbD_and, BitVec.getLsbD_and, BitVec.getLsbD_not]
  cases x.getLsbD i <;> simp [hi]

theorem maj_getLsbD (x y z : Word) (i : Nat) :
    (maj x y z).getLsbD i = decide (2 ≤ (x.getLsbD i).toNat + (y.getLsbD i).toNat + (z.getLsbD i).toNat) := by
  rw [maj, BitVec.getLsbD_xor, BitVec.getLsbD_xor, BitVec.getLsbD_and, BitVec.getLsbD_and, BitVec.getLsbD_and]
  generalize x.getLsbD i = a, y.getLsbD i = b, z.getLsbD i = c
  revert a b c
  decide

end Sys2Proof.Machine
end

section
/-! ### The message schedule (41_compression.md R140, R141) -/

namespace Sys2Proof.Machine

/-- A fold over `0, ..., n - 1` in order, by the number of elements it has passed. -/
theorem foldl_finRange_induction {α : Type} {n : Nat} {f : α → Fin n → α} {a : α} (motive : Nat → α → Prop)
    (start : motive 0 a) (next : ∀ (i : Fin n) (a : α), motive i a → motive (i + 1) (f a i)) :
    motive n ((List.finRange n).foldl f a) := by
  induction n with
  | zero => exact start
  | succ n ih =>
    rw [List.finRange_succ_last, List.foldl_append, List.foldl_map]
    exact next (Fin.last n) _ (ih fun i => next i.castSucc)

theorem blockWords_get (b : Vector Byte 64) {t : Nat} (ht : t < 16) :
    (blockWords b)[t] = be32 b[4 * t] b[4 * t + 1] b[4 * t + 2] b[4 * t + 3] := by
  simp [blockWords, ht]

theorem expandWord_get_same (w : Vector Word 64) (i : Fin 48) :
    (expandWord w i)[i.val + 16] =
      smallSigma1 w[i.val + 14] + w[i.val + 9] + smallSigma0 w[i.val + 1] + w[i.val] := by
  simp [expandWord]

theorem expandWord_get_of_ne (w : Vector Word 64) (i : Fin 48) {t : Nat} (ht : t < 64) (hne : t ≠ i.val + 16) :
    (expandWord w i)[t] = w[t] :=
  Vector.getElem_set_ne _ _ hne.symm

/-- Words 0..15 are the block's, and the `k` words from 16 on follow R141. -/
structure ExpandedTo (b : Vector Byte 64) (k : Nat) (w : Vector Word 64) : Prop where
  block : ∀ (t : Nat) (_ : t < 16), w[t] = be32 b[4 * t] b[4 * t + 1] b[4 * t + 2] b[4 * t + 3]
  expanded : ∀ (j : Nat) (_ : j < k) (_ : j < 48),
    w[j + 16] = smallSigma1 w[j + 14] + w[j + 9] + smallSigma0 w[j + 1] + w[j]

theorem expandedTo_blockWords (b : Vector Byte 64) : ExpandedTo b 0 (blockWords b) :=
  ⟨fun _ ht => blockWords_get b ht, fun _ hj => absurd hj (Nat.not_lt_zero _)⟩

/-- A step of the expansion writes the next word, which none of the words up to it reads. -/
theorem ExpandedTo.expandWord {b : Vector Byte 64} {w : Vector Word 64} {i : Fin 48} (e : ExpandedTo b i w) :
    ExpandedTo b (i + 1) (expandWord w i) := by
  have hkeep (t : Nat) (ht : t < i.val + 16) : (Machine.expandWord w i)[t] = w[t] :=
    expandWord_get_of_ne w i (by omega) (by omega)
  refine ⟨fun t ht => (hkeep t (by omega)).trans (e.block t ht), fun j hj hj48 => ?_⟩
  rw [hkeep (j + 14) (by omega), hkeep (j + 9) (by omega), hkeep (j + 1) (by omega), hkeep j (by omega)]
  obtain hlt | rfl : j < i.val ∨ j = i.val := by omega
  · exact (hkeep (j + 16) (by omega)).trans (e.expanded j hlt hj48)
  · exact expandWord_get_same w i

theorem expandedTo_schedule (b : Vector Byte 64) : ExpandedTo b 48 (schedule b) :=
  foldl_finRange_induction (ExpandedTo b) (expandedTo_blockWords b) fun _ _ e => e.expandWord

end Sys2Proof.Machine
end

section
/-! ### The rolling window (41_compression.md R146) -/

namespace Sys2Proof.Machine.Reference

theorem shiftWindow_get (w : Vector Word 16) {i : Nat} (hi : i < 15) : (shiftWindow w)[i] = w[i + 1] := by
  simp [shiftWindow, hi]

theorem shiftWindow_get_last (w : Vector Word 16) :
    (shiftWindow w)[15] = smallSigma1 w[14] + w[9] + smallSigma0 w[1] + w[0] := by
  simp [shiftWindow]

/-- The window holds the words of the schedule from word `k` on, as far as there are any. -/
def WindowAt (W : Vector Word 64) (k : Nat) (window : Vector Word 16) : Prop :=
  ∀ (i : Nat) (_ : i < 16) (_ : k + i < 64), window[i] = W[k + i]

/-- The shift brings in the schedule's next word, since both follow R141. -/
theorem WindowAt.shiftWindow {b : Vector Byte 64} {k : Nat} {window : Vector Word 16}
    (w : WindowAt (schedule b) k window) : WindowAt (schedule b) (k + 1) (shiftWindow window) := by
  intro i hi hk
  obtain hlt | rfl : i < 15 ∨ i = 15 := by omega
  · simp only [shiftWindow_get window hlt, w (i + 1) (by omega) (by omega), Nat.add_assoc, Nat.add_comm 1 i]
  · simp only [shiftWindow_get_last, w 14 (by omega) (by omega), w 9 (by omega) (by omega),
      w 1 (by omega) (by omega), w 0 (by omega) (by omega), Nat.add_zero, Nat.add_assoc k 1 15]
    exact ((expandedTo_schedule b).expanded k (by omega) (by omega)).symm

/-- After `k` rounds on the rolling window, from the working variables `v`: the window stands at word `k`, and the
rounds that are left lead to what all rounds with the schedule `W` lead to from `v`. -/
structure RolledTo (W : Vector Word 64) (v : Work) (k : Nat) (r : Rolling) : Prop where
  window : WindowAt W k r.window
  work : ((List.finRange 64).drop k).foldl (fun v t => shaRound v roundK[t] W[t]) r.work = rounds W v

theorem RolledTo.rollingRound {b : Vector Byte 64} {v : Work} {t : Fin 64} {r : Rolling}
    (e : RolledTo (schedule b) v t r) : RolledTo (schedule b) v (t + 1) (rollingRound r t) := by
  refine ⟨e.window.shiftWindow, ?_⟩
  have hwork := e.work
  rw [List.drop_eq_getElem_cons (by simp), List.foldl_cons, List.getElem_finRange] at hwork
  rw [← hwork, Reference.rollingRound, e.window 0 (by omega) (by omega)]
  rfl

theorem compressRolling_eq_compress (h : Vector Word 8) (b : Vector Byte 64) : compressRolling h b = compress h b := by
  refine congrArg (feedForward h) (RolledTo.work (W := schedule b) (k := 64) ?_)
  refine foldl_finRange_induction (RolledTo (schedule b) (Work.ofAccumulator h)) ⟨fun i hi _ => ?_, rfl⟩
    fun _ _ e => e.rollingRound
  simp [(expandedTo_schedule b).block i hi]

end Sys2Proof.Machine.Reference
end

section
/-! ### Compression (41_compression.md): O25, O26, O28, O29 -/

namespace Sys2Proof

open Sys2Proof.Machine Sys2Proof.Machine.Reference

/-- Settles O28: it holds, by induction on the number of expanded words. -/
theorem scheduleFollowsItsRecurrence : Obligations.ScheduleFollowsItsRecurrence := by
  intro b
  refine ⟨(expandedTo_schedule b).block, fun t h16 h64 => ?_⟩
  obtain ⟨j, rfl⟩ := Nat.exists_eq_add_of_le' h16
  exact (expandedTo_schedule b).expanded j (by omega) (by omega)

/-- Settles O29: it holds. Before each round the window stands at the round's word of the schedule. -/
theorem rollingWindowCompressesAlike : Obligations.RollingWindowCompressesAlike :=
  compressRolling_eq_compress

/-- Settles O25: it holds, by whether the bit comes round. -/
theorem rotrMovesEveryBit : Obligations.RotrMovesEveryBit :=
  fun x _ _ hn hn32 hi => rotr_getLsbD x hn hn32 hi

/-- Settles O26: it holds, by the bits of the arguments. -/
theorem chooseAndMajorityBits : Obligations.ChooseAndMajorityBits :=
  fun x y z i hi => ⟨ch_getLsbD x y z hi, maj_getLsbD x y z i⟩

end Sys2Proof
end

section
/-! ### FINAL's extra bits under the two alignments (42_finalize.md R161) -/

namespace Sys2Proof.Machine

/-- Shifted to the top of the byte, the bits `low` reads are those `high` reads, in the same order. -/
theorem extraBits_high_shiftLeft (n : BitVec 3) (ub : Byte) :
    extraBits .high n (ub <<< (8 - n.toNat)) = extraBits .low n ub := by
  refine BitVec.eq_of_getMsbD_eq fun j _ => ?_
  by_cases hj : j < n.toNat
  · have hin : j + (8 - n.toNat) < 8 := by omega
    have hpos : 8 - 1 - (j + (8 - n.toNat)) = n.toNat - 1 - j := by omega
    rw [extraBits_high_getMsbD _ hj, extraBits_low_getMsbD ub hj, BitVec.getMsbD_shiftLeft,
      BitVec.getMsbD_eq_getLsbD, decide_eq_true hin, Bool.true_and, hpos]
  · rw [extraBits_getMsbD_of_le .high _ (by omega), extraBits_getMsbD_of_le .low ub (by omega)]

end Sys2Proof.Machine
end

section
/-! ### FINAL (42_finalize.md): O30, O31, O34 -/

namespace Sys2Proof

open Sys2Proof.Machine Sys2Proof.Safety

/-- Settles O30: it holds. The 1 of the sentinel stands behind the extra bits, where their byte has zeros. -/
theorem sentinelBits : Obligations.SentinelBits := by
  intro n ub j hj
  by_cases hin : j < n.toNat
  · simp only [if_pos hin]
    refine ⟨extraBits_low_getMsbD ub hin, extraBits_high_getMsbD ub hin, fun align => ?_⟩
    rw [sentinel_getMsbD align n ub hj, decide_eq_false hin.ne, Bool.or_false]
  · have hzero (align : SubbyteAlign) := extraBits_getMsbD_of_le align ub (Nat.not_lt.mp hin)
    simp only [if_neg hin]
    refine ⟨hzero .low, hzero .high, fun align => ?_⟩
    rw [sentinel_getMsbD align n ub hj, hzero align, Bool.false_or]

/-- Settles O31: it holds. A held context's `BLEN` has a value, and FINAL compresses the blocks of the padded end. -/
theorem finalPadsCompressesAndEmits : Obligations.FinalPadsCompressesAndEmits := by
  intro s n ub h tb hc e hh ht
  obtain ⟨k, -, hk, -⟩ := e.counts
  exact exec_final_held n ub hc e hh hk ht

/-- Settles O34: it holds, since the extra bits agree. -/
theorem highAlignmentGivesTheSameBits : Obligations.HighAlignmentGivesTheSameBits := by
  intro n ub
  rw [sentinel, extraBits_high_shiftLeft, ← sentinel]

end Sys2Proof
end

section
/-! ### Entering `FAULT` and staying there (60_exceptions.md R183 to R190) -/

namespace Sys2Proof

/-- An ill-formed word stands at the front of the items it was read from. -/
theorem decode_illegal_cases {items rest : List PortItem} {w : Word} (h : decode items = .illegal w rest) :
    decodeWord w = none ∧ items = .word w :: rest := by
  rw [decode.eq_def] at h
  split at h
  · cases h
  · cases h
  · split at h
    · cases h
      exact ⟨‹_›, rfl⟩
    · cases h
    · cases h
    · split at h <;> cases h

end Sys2Proof

namespace Sys2Proof.Machine

/-- A well-formed UPDATE or FINAL runs behind the preamble that needs the context (R187). -/
theorem exec_eq_preamble {i : Instr} (hw : i.wellFormed = true)
    (hi : (∃ len p, i = .update len p) ∨ ∃ n ub, i = .final n ub) (s : State) :
    ∃ body, exec i s = preamble true s body := by
  obtain ⟨len, p, rfl⟩ | ⟨n, ub, rfl⟩ := hi
  · exact ⟨_, exec_update_wellFormed s (wellFormed_update_iff.mp hw)⟩
  · exact ⟨_, exec_final n ub s⟩

/-- A command that leads into `FAULT` raised an engine fault and did nothing else (R185, R188). -/
theorem exec_entersFault {i : Instr} {s t : State} (h : exec i s = .next t) (hs : s.cst ≠ .fault)
    (ht : t.cst = .fault) : ∃ code, code ≠ .none ∧ t = raiseFault code s := by
  cases i with
  | init v =>
    obtain ⟨hc, -⟩ | ⟨-, rfl⟩ := execInit_cases h
    · exact absurd hc hs
    · simp at ht
  | update len p =>
    obtain ⟨-, ⟨hc, -⟩ | ⟨-, hok⟩ | ⟨-, rfl⟩ | ⟨-, rfl⟩⟩ := execUpdate_cases h
    · exact absurd hc hs
    · obtain ⟨-, -, -, -, hcst, -⟩ := Safety.absorbChunk_hostSide hok
      exact absurd (hcst.symm.trans ht) hs
    · exact ⟨_, by decide, rfl⟩
    · exact ⟨_, by decide, rfl⟩
  | final n ub =>
    obtain ⟨hc, -⟩ | ⟨-, hok⟩ | ⟨-, rfl⟩ | ⟨-, rfl⟩ := execFinal_cases h
    · exact absurd hc hs
    · obtain ⟨-, -, -, hv, -, -, -, -, rfl⟩ := finalizeContext_cases hok
      simp at ht
    · exact ⟨_, by decide, rfl⟩
    · exact ⟨_, by decide, rfl⟩

/-- A step that leads into `FAULT` took a transaction off the port and raised an engine fault for it (R185, R188). -/
theorem step_entersFault {s t : State} (h : step s = .next t) (hs : s.cst ≠ .fault) (ht : t.cst = .fault) :
    ∃ code rest d, code ≠ .none ∧ rest.length < s.cmd.length ∧
      t = raiseFault code { s with cmd := rest, discarding := d } := by
  obtain ⟨-, rfl⟩ | ⟨-, w, rest, hdec, rfl⟩ | ⟨-, b, rest, -, -, rfl⟩ | ⟨-, i, rest, hdec, hexec⟩ := step_cases h
  · obtain ⟨rest, -, hreset⟩ | ⟨-, -, -, -, -, -, hcst, -⟩ := Safety.hostTurn_engine s
    · simp [hreset] at ht
    · exact absurd (hcst.trans ht) hs
  · obtain ⟨-, hcmd⟩ := decode_illegal_cases hdec
    obtain ⟨hc, -⟩ | ⟨-, heq⟩ := illegalCommand_cases { s with cmd := rest, discarding := true }
    · exact absurd hc hs
    · exact ⟨.illegalCommand, rest, true, by decide, by simp [hcmd], heq⟩
  · exact absurd ht hs
  · obtain ⟨w, -, hcmd, -⟩ := decode_instr_cases hdec
    obtain ⟨code, hcode, rfl⟩ := exec_entersFault hexec hs ht
    have hlen : rest.length < s.cmd.length := by
      rw [hcmd, List.length_cons, List.length_append]
      omega
    exact ⟨code, rest, _, hcode, hlen, rfl⟩

/-- In `FAULT` a step is the host's turn, or takes items off the command port and does nothing else (R189). -/
theorem step_ofFault {s t : State} (hc : s.cst = .fault) (h : step s = .next t) :
    t = hostTurn s ∨ ∃ cmd d, t = { s with cmd := cmd, discarding := d } := by
  obtain ⟨-, rfl⟩ | ⟨-, w, rest, -, rfl⟩ | ⟨-, b, rest, -, -, rfl⟩ | ⟨hd, i, rest, hdec, -⟩ := step_cases h
  · exact .inl rfl
  · obtain ⟨-, heq⟩ | ⟨hne, -⟩ := illegalCommand_cases { s with cmd := rest, discarding := true }
    · exact .inr ⟨rest, true, heq⟩
    · exact absurd hc hne
  · exact .inr ⟨rest, s.discarding, rfl⟩
  · obtain ⟨-, -, -, hw⟩ := decode_instr_cases hdec
    have hnext := (step_instr hd hdec).trans (exec_fault hw hc)
    exact .inr ⟨rest, _, Host.Outcome.next.inj (h.symm.trans hnext)⟩

/-- A host's turn puts nothing on `dout` (R63). -/
theorem hostTurn_dout_length_le (s : State) : (hostTurn s).dout.length ≤ s.dout.length := by
  obtain h | ⟨b, -, -, h, -⟩ | ⟨-, -, h⟩ := hostTurn_dout s
  · rw [h]
  · rw [h, List.length_cons]
    exact Nat.le_succ _
  · simp [h]

end Sys2Proof.Machine
end

section
/-! ### Engine faults (60_exceptions.md): O8, O41, O43, O44, O52 -/

namespace Sys2Proof

open Sys2Proof.Machine Sys2Proof.Safety

/-- Settles O8: it holds. The decoder waits for the missing bytes, and finds a word in their place too short a payload. -/
theorem updateWaitsForItsPayload : Obligations.UpdateWaitsForItsPayload := by
  intro s w len p hword hd hp
  have hwait (hcmd : s.cmd = .word w :: p.map .byte) : step s = .next (hostTurn s) :=
    step_waiting hd (hcmd ▸ decode_update_waiting hword hp)
  refine ⟨hwait, fun hcmd hhost => ?_, fun w' rest hcmd => ?_⟩
  · rw [hwait hcmd, hostTurn_nil hhost]
  · exact step_payloadShort hd (hcmd ▸ decode_update_cut w' rest hword hp)

/-- Settles O43: it holds, since a step into `FAULT` is an engine fault raised for what it took off the port. -/
theorem faultsArePrecise : Obligations.FaultsArePrecise := by
  intro s t h hs ht
  obtain ⟨code, rest, d, hcode, hlen, rfl⟩ := step_entersFault h hs ht
  exact ⟨hcode, rfl, hlen⟩

/-- Settles O44: it holds. In `FAULT` transactions are discarded, and of the host's actions only reset writes the
engine. -/
theorem onlyResetLeavesFault : Obligations.OnlyResetLeavesFault := by
  intro s t hc h
  obtain rfl | ⟨cmd, d, rfl⟩ := step_ofFault hc h
  · obtain ⟨rest, hhost, hreset⟩ | ⟨-, hh, hbuf, hblen, htbits, hvar, hcst, hfcode, -⟩ := hostTurn_engine s
    · exact .inr ⟨rest, hhost, by rw [hreset, assertReset_cst], by rw [hreset, assertReset_fcode]⟩
    · exact .inl ⟨hcst.symm.trans hc, hfcode.symm, hvar.symm, hh.symm, hbuf.symm, hblen.symm, htbits.symm,
        hostTurn_dout_length_le s⟩
  · exact .inl ⟨hc, rfl, rfl, rfl, rfl, rfl, rfl, le_rfl⟩

/-- Settles O52: it holds, by what stands at the front of the port: a decoded command completes under the invariant, and
an ill-formed word or a wait always answers a next state. -/
theorem onlyHostErrorsStopAStep : Obligations.OnlyHostErrorsStopAStep := by
  intro s hinv
  by_cases hd : s.dout = []
  · cases hdec : decode s.cmd with
    | instr i rest =>
      obtain ⟨-, -, -, hw⟩ := decode_instr_cases hdec
      obtain ⟨t, ht⟩ := ((inv_iff.mp hinv).1.withCmd rest (discardsPayload i s.cst)).exec_next hw
      exact .inl ⟨t, (step_instr hd hdec).trans ht⟩
    | illegal w rest => exact .inl ⟨_, step_illegal hd hdec⟩
    | waiting => exact .inl ⟨_, step_waiting hd hdec⟩
    | payloadShort => exact .inr (.inl rfl)
    | strayByte b rest => exact .inr (.inr ⟨b, rest, rfl⟩)
  · exact .inl ⟨_, step_inTransit hd⟩

/-- Settles O41: it holds, by the preamble's two faults. -/
theorem updateAndFinalFaultOutsideActive : Obligations.UpdateAndFinalFaultOutsideActive := by
  refine ⟨rfl, rfl, fun s i hw hi => ?_⟩
  obtain ⟨body, hexec⟩ := exec_eq_preamble hw hi s
  rw [hexec]
  exact ⟨fun hc => preamble_uninit hc, fun hc => preamble_done hc⟩

end Sys2Proof
end

section
/-! ### The status port while a digest is in transit (70_reset_and_hazards.md R217) -/

namespace Sys2Proof.Machine

/-- With a digest in transit the status port gives `ACTIVE` with the variant and no fault (R217). -/
theorem statusPort_inTransit {s : State} (h : s.dout ≠ []) : s.statusPort = statusWord .active s.var .none := by
  obtain ⟨b, bs, hd⟩ := List.exists_cons_of_ne_nil h
  simp only [State.statusPort, hd]

/-- Both variants have a digest with bytes in it (R166). -/
theorem digestBytes_ne_nil (v : Variant) (h : Vector Word 8) : digestBytes v h ≠ [] := by
  refine List.ne_nil_of_length_pos ?_
  rw [digestBytes_length]
  cases v <;> decide

/-- FINAL that completes in `ACTIVE` leads to `DONE` with the digest behind what is in transit, and keeps `VAR` and
`FCODE` (R160, R167). -/
theorem execFinal_active_next {n : BitVec 3} {ub : Byte} {s t : State} (hc : s.cst = .active)
    (h : exec (.final n ub) s = .next t) :
    t.cst = .done ∧ t.var = s.var ∧ t.fcode = s.fcode ∧ ∃ hv, t.dout = s.dout ++ digestBytes s.var hv := by
  rw [execFinal_active hc] at h
  obtain ⟨-, -, -, hv, -, -, -, -, rfl⟩ := finalizeContext_cases (outcomeOf_eq_next h)
  exact ⟨rfl, rfl, rfl, hv, rfl⟩

/-- An UPDATE whose payload does not have `LEN` bytes is refused before the preamble (R215, 93 S9). -/
theorem exec_update_otherLength {len : BitVec 24} {p : List Byte} (s : State) (h : p.length ≠ len.toNat) :
    exec (.update len p) s = .refused .payloadLength := by
  rw [exec_update, if_neg h]

end Sys2Proof.Machine
end

section
/-! ### Hazards (70_reset_and_hazards.md R215 to R217): O10, O16, O22 -/

namespace Sys2Proof

open Sys2Proof.Machine

/-- Settles O16: it holds. FINAL keeps `VAR` and `FCODE`, so before the last byte the port gives `ACTIVE` with the
variant and no fault, which was the register before FINAL, and after it the register of `DONE`. -/
theorem statusReadDuringFinalIsTheOneBefore : Obligations.StatusReadDuringFinalIsTheOneBefore := by
  intro s t n ub hc hf hd h
  obtain ⟨hcst, hvar, hfcode, hv, hdout⟩ := execFinal_active_next hc h
  refine ⟨?_, fun k hk => ?_, ?_⟩
  · rw [hdout, hd, List.nil_append]
    exact digestBytes_ne_nil s.var hv
  · have hleft : t.dout.drop k ≠ [] := by rwa [Ne, List.drop_eq_nil_iff, not_le]
    rw [statusPort_inTransit hleft, State.status, hc, hf, hvar]
  · rw [statusPort_idle rfl, State.status, hcst, hvar, hfcode, hf]

/-- Settles O10: it holds. With a digest in transit the step does not look at the command port. -/
theorem digestInTransitBlocksTheEngine : Obligations.DigestInTransitBlocksTheEngine :=
  fun _ hd => ⟨step_inTransit hd, fun hhost => by rw [step_inTransit hd, hostTurn_nil hhost]⟩

/-- Settles O22: it holds, since the length is compared before the context state is looked at. -/
theorem updateOfAnotherLengthIsRefused : Obligations.UpdateOfAnotherLengthIsRefused :=
  fun s _ _ hp => exec_update_otherLength s hp

end Sys2Proof
end
